-- ==== Sys2Proof/Word.lean ====
section
/-! DEFINITION. The word the encoder emits, and the characters, strings and tokens it reads
(spec/00_scope.md R7, R9; spec/30_encoding.md R50). -/

namespace Sys2Proof

/-- A machine word: 19 bits, bit 18 the leftmost character of its text (R7, R50; log entry 25). -/
abbrev Word := BitVec 19

/-- A character: an 8-bit value (R9, R36; log entry 11). -/
abbrev Chr := BitVec 8

/-- A finite sequence of characters (R9). -/
abbrev Str := List Chr

/-- A token: a string (R9). -/
abbrev Tok := Str

/-- The character string a Lean string literal spells, one 8-bit value a character. -/
def str (s : String) : Str := s.toList.map fun c => BitVec.ofNat 8 c.toNat

end Sys2Proof
end

