-- ==== Sys2Proof/Config.lean ====
section
/-! DEFINITION. The open parameters of the encoder: the record CODES of the twelve code values that no
source states (spec/00_scope.md R5, R6; spec/92_eei_decisions.md D8, D9; log entry 3). -/

namespace Sys2Proof

/-- The twelve open code values of R5, with the two constraints of R6 that the source states of every
record of them: the widths (a), and the seven I-type opcodes pairwise distinct (b; R163 (b)). -/
structure Codes where
  opcAddi : BitVec 4
  opcAndi : BitVec 4
  opcLw : BitVec 4
  opcLea : BitVec 4
  opcSw : BitVec 4
  opcPcm : BitVec 4
  opcBeq : BitVec 4
  fnSub : BitVec 3
  fnAnd : BitVec 3
  fnOr : BitVec 3
  fnSlt : BitVec 3
  fnMvz : BitVec 3
  distinct : [opcAddi, opcAndi, opcLw, opcLea, opcSw, opcPcm, opcBeq].Nodup
  deriving DecidableEq, Repr

/-- The seven I-type opcodes, in the order of R5. -/
def Codes.iOpcodes (c : Codes) : List (BitVec 4) :=
  [c.opcAddi, c.opcAndi, c.opcLw, c.opcLea, c.opcSw, c.opcPcm, c.opcBeq]

/-- The five open function codes, in the order of R5. -/
def Codes.openFns (c : Codes) : List (BitVec 3) :=
  [c.fnSub, c.fnAnd, c.fnOr, c.fnSlt, c.fnMvz]

/-- Constraint (b) of R6: the seven I-type opcodes are pairwise distinct. Every record meets it. -/
abbrev Codes.Distinct (c : Codes) : Prop := c.iOpcodes.Nodup

/-- Constraints (c) and (d) of R6, the spec's named premise `CodesSeparate`: no I-type opcode is the
R-type or the jump opcode, and the six function codes are pairwise distinct. A premise of claims about
reading words back, never a fact of the hardware. -/
abbrev Codes.Separate (c : Codes) : Prop :=
  0b0000#4 ∉ c.iOpcodes ∧ 0b1111#4 ∉ c.iOpcodes ∧ (0b000#3 :: c.openFns).Nodup

/-- REF, the reference instantiation of D9: used for examples and witnesses only, evidence of nothing. -/
def Codes.ref : Codes where
  opcAddi := 0b0001#4
  opcAndi := 0b0010#4
  opcLw := 0b0011#4
  opcLea := 0b0100#4
  opcSw := 0b0101#4
  opcPcm := 0b0110#4
  opcBeq := 0b0111#4
  fnSub := 0b001#3
  fnAnd := 0b010#3
  fnOr := 0b011#3
  fnSlt := 0b100#3
  fnMvz := 0b101#3
  distinct := by decide

/-- A record of codes of which nothing is known but that it meets R6 (a) and (b). The argument only shows
Lean that such a record exists; no value of it can be proved. -/
opaque Config.openCodes [Inhabited Codes] : Codes

/-- CODES of this hardware: open, without a value (D8: OPEN; log entry 3). -/
def Config.codes : Codes := @Config.openCodes ⟨Codes.ref⟩

end Sys2Proof
end

