-- ==== Sys2Proof/Syntax.lean ====
section
/-! DEFINITION. The instructions: the token lines whose mnemonic is one of the fourteen rows of
spec/opcode_table.json (spec/10_state.md R13; the set is closed, R74). What an instruction holds is the
raw line it was read from, which an error event records (R136), and its operand tokens as written, token 1
onward (R81). Log entry 29. -/

namespace Sys2Proof

/-- The fourteen mnemonics, in the order of R13. -/
inductive Mnemonic where
  | add | sub | and | or | slt | mvz
  | addi | andi | lw | lea | sw | pcm | beq
  | jump
  deriving DecidableEq, Repr

/-- The three shapes of R51, R52 and R53. -/
inductive Shape where
  | r | i | j
  deriving DecidableEq, Repr

/-- One line holding an instruction: `line` is the raw line, `args` the operand tokens in source order. -/
inductive Instr where
  /-- `add rd, ra, rb` (R101) -/
  | add (line : Str) (args : List Tok)
  /-- `sub rd, ra, rb` (R102) -/
  | sub (line : Str) (args : List Tok)
  /-- `and rd, ra, rb` (R103) -/
  | and (line : Str) (args : List Tok)
  /-- `or rd, ra, rb` (R104) -/
  | or (line : Str) (args : List Tok)
  /-- `slt rd, ra, rb` (R105) -/
  | slt (line : Str) (args : List Tok)
  /-- `mvz rd, ra, rb` (R106) -/
  | mvz (line : Str) (args : List Tok)
  /-- `addi ra, rb, imm` (R111) -/
  | addi (line : Str) (args : List Tok)
  /-- `andi ra, rb, imm` (R112) -/
  | andi (line : Str) (args : List Tok)
  /-- `lw ra, rb, imm` (R113) -/
  | lw (line : Str) (args : List Tok)
  /-- `lea ra, rb, imm` (R114) -/
  | lea (line : Str) (args : List Tok)
  /-- `sw ra, rb, imm` (R115) -/
  | sw (line : Str) (args : List Tok)
  /-- `pcm ra, rb, imm` (R116) -/
  | pcm (line : Str) (args : List Tok)
  /-- `beq ra, rb, imm` (R117) -/
  | beq (line : Str) (args : List Tok)
  /-- `jump target` (R120) -/
  | jump (line : Str) (args : List Tok)
  deriving DecidableEq, Repr

/-- The mnemonic of an instruction. -/
def Instr.mnemonic : Instr → Mnemonic
  | .add _ _ => .add
  | .sub _ _ => .sub
  | .and _ _ => .and
  | .or _ _ => .or
  | .slt _ _ => .slt
  | .mvz _ _ => .mvz
  | .addi _ _ => .addi
  | .andi _ _ => .andi
  | .lw _ _ => .lw
  | .lea _ _ => .lea
  | .sw _ _ => .sw
  | .pcm _ _ => .pcm
  | .beq _ _ => .beq
  | .jump _ _ => .jump

/-- The raw line of an instruction. -/
def Instr.line : Instr → Str
  | .add l _ | .sub l _ | .and l _ | .or l _ | .slt l _ | .mvz l _
  | .addi l _ | .andi l _ | .lw l _ | .lea l _ | .sw l _ | .pcm l _ | .beq l _
  | .jump l _ => l

/-- The operand tokens of an instruction. -/
def Instr.args : Instr → List Tok
  | .add _ a | .sub _ a | .and _ a | .or _ a | .slt _ a | .mvz _ a
  | .addi _ a | .andi _ a | .lw _ a | .lea _ a | .sw _ a | .pcm _ a | .beq _ a
  | .jump _ a => a

/-- The instruction with a given mnemonic, raw line and operand tokens. -/
def Mnemonic.instr : Mnemonic → Str → List Tok → Instr
  | .add => .add
  | .sub => .sub
  | .and => .and
  | .or => .or
  | .slt => .slt
  | .mvz => .mvz
  | .addi => .addi
  | .andi => .andi
  | .lw => .lw
  | .lea => .lea
  | .sw => .sw
  | .pcm => .pcm
  | .beq => .beq
  | .jump => .jump

end Sys2Proof
end

