-- ==== Sys2Proof/Machine/Tables.lean ====
section
/-! DEFINITION. The fixed parameters of spec/00_scope.md R4 and the contents of the two read-only tables
REGTAB and OPTAB (spec/10_state.md R12, R13), with their look-up by content (spec/20_memory.md R31).
Log entries 27 and 28. -/

namespace Sys2Proof.Machine

/-- `OPC_R`: the opcode shared by all R-type mnemonics (R4). -/
def opcR : BitVec 4 := 0b0000#4

/-- `OPC_JUMP`: the opcode of `jump` (R4). -/
def opcJump : BitVec 4 := 0b1111#4

/-- `FN_ADD`: the function code of `add` (R4). -/
def fnAdd : BitVec 3 := 0b000#3

/-- The three padding bits of R-type and jump words (R4). -/
def pad : BitVec 3 := 0b000#3

/-- `ZERO_WORD`: the leading word, nineteen zero bits (R4, R161). -/
def zeroWord : Word := 0#19

/-- `IMM_MIN` (R4). -/
def immMin : Int := -256

/-- `IMM_MAX` (R4). -/
def immMax : Int := 255

/-- `TGT_MIN` (R4). -/
def tgtMin : Int := 0

/-- `TGT_MAX` (R4). -/
def tgtMax : Int := 4095

/-- The key of a mnemonic in OPTAB: its exact lowercase characters (R13). -/
def mnemonicName : Mnemonic → Str
  | .add => str "add"
  | .sub => str "sub"
  | .and => str "and"
  | .or => str "or"
  | .slt => str "slt"
  | .mvz => str "mvz"
  | .addi => str "addi"
  | .andi => str "andi"
  | .lw => str "lw"
  | .lea => str "lea"
  | .sw => str "sw"
  | .pcm => str "pcm"
  | .beq => str "beq"
  | .jump => str "jump"

/-- The cell of an OPTAB row (R13). The class fixes the opcode of R-type and jump rows and says which
column is open: the function code of an R-type row, the opcode of an I-type row. -/
inductive OpEntry where
  | r (fn : BitVec 3)
  | i (opcode : BitVec 4)
  | j
  deriving DecidableEq, Repr

/-- The class column of R13. -/
def entryShape : OpEntry → Shape
  | .r _ => .r
  | .i _ => .i
  | .j => .j

/-- The opcode column of R13. -/
def entryOpcode : OpEntry → BitVec 4
  | .r _ => opcR
  | .i opc => opc
  | .j => opcJump

/-- The function-code column of R13: none for I-type and jump rows. -/
def entryFn : OpEntry → Option (BitVec 3)
  | .r fn => some fn
  | .i _ => none
  | .j => none

/-- REGTAB as data: rows of a register name and its 3-bit index (R12). -/
abbrev RegTab := List (Str × BitVec 3)

/-- OPTAB as data: rows of a mnemonic and its cell (R13). -/
abbrev OpTab := List (Mnemonic × OpEntry)

/-- The eight rows of R12. -/
def regTabRows : RegTab :=
  [(str "r0", 0#3), (str "r1", 1#3), (str "r2", 2#3), (str "r3", 3#3),
   (str "r4", 4#3), (str "r5", 5#3), (str "r6", 6#3), (str "r7", 7#3)]

/-- The cell of a mnemonic's row in R13, the open columns filled from CODES. -/
def opEntry (c : Codes) : Mnemonic → OpEntry
  | .add => .r fnAdd
  | .sub => .r c.fnSub
  | .and => .r c.fnAnd
  | .or => .r c.fnOr
  | .slt => .r c.fnSlt
  | .mvz => .r c.fnMvz
  | .addi => .i c.opcAddi
  | .andi => .i c.opcAndi
  | .lw => .i c.opcLw
  | .lea => .i c.opcLea
  | .sw => .i c.opcSw
  | .pcm => .i c.opcPcm
  | .beq => .i c.opcBeq
  | .jump => .j

/-- The mnemonics in the row order of R13 (the order carries no meaning). -/
def allMnemonics : List Mnemonic :=
  [.add, .sub, .and, .or, .slt, .mvz, .addi, .andi, .lw, .lea, .sw, .pcm, .beq, .jump]

/-- The fourteen rows of R13. -/
def opTabRows (c : Codes) : OpTab := allMnemonics.map fun m => (m, opEntry c m)

/-- `REGTAB(t)`: the index of the row whose name is exactly the token, else none (R12, R31). -/
def lookupReg (rt : RegTab) (t : Tok) : Option (BitVec 3) :=
  (rt.find? fun row => row.1 == t).map (·.2)

/-- `OPTAB(m)`: the row whose mnemonic is exactly the string, else none (R13, R31). -/
def lookupOp (ot : OpTab) (m : Str) : Option (Mnemonic × OpEntry) :=
  ot.find? fun row => mnemonicName row.1 == m

/-- The cell of one mnemonic's row. -/
def entryOf (ot : OpTab) (mn : Mnemonic) : Option OpEntry :=
  (ot.find? fun row => row.1 == mn).map (·.2)

/-- The shape of a mnemonic (R51, R52, R53; R82). -/
def mnemonicShape : Mnemonic → Shape
  | .add | .sub | .and | .or | .slt | .mvz => .r
  | .addi | .andi | .lw | .lea | .sw | .pcm | .beq => .i
  | .jump => .j

/-- The number of operand tokens of a shape: one less than the arity of R4, which counts the mnemonic. -/
def operandCount : Shape → Nat
  | .r => 3
  | .i => 3
  | .j => 1

end Sys2Proof.Machine
end

