-- ==== Sys2Proof/Machine/Fields.lean ====
section
/-! DEFINITION. The bit fields of a machine word: packing (spec/30_encoding.md R51 to R57), reading back
(R56, R57), and the text rendering (spec/20_memory.md R34, R35). -/

namespace Sys2Proof.Machine

/-- R51, R100: opcode, token 2, token 3, token 1, padding, function code. -/
def packR (fn sa sb rd : BitVec 3) : Word := opcR ++ sa ++ sb ++ rd ++ pad ++ fn

/-- R52, R110: opcode, token 2, token 1, immediate. -/
def packI (opc : BitVec 4) (rb ra : BitVec 3) (imm : BitVec 9) : Word := opc ++ rb ++ ra ++ imm

/-- R53, R120: opcode, padding, target. -/
def packJ (tgt : BitVec 12) : Word := opcJump ++ pad ++ tgt

/-- `bits9(v mod 512)`: 9-bit two's complement (R56). -/
def immField (v : Int) : BitVec 9 := BitVec.ofNat 9 (v % 512).toNat

/-- `bits12(v)` (R57). -/
def tgtField (v : Int) : BitVec 12 := BitVec.ofNat 12 v.toNat

/-- `w[18:15]`, the opcode field of every shape (R51, R52, R53). -/
def fieldOpcode (w : Word) : BitVec 4 := w.extractLsb' 15 4

/-- `w[14:12]`: `sa` of an R-type word, `rb` of an I-type word, the padding of a jump word. -/
def fieldHi (w : Word) : BitVec 3 := w.extractLsb' 12 3

/-- `w[11:9]`: `sb` of an R-type word, `ra` of an I-type word. -/
def fieldMid (w : Word) : BitVec 3 := w.extractLsb' 9 3

/-- `w[8:6]`: `rd` of an R-type word. -/
def fieldRd (w : Word) : BitVec 3 := w.extractLsb' 6 3

/-- `w[5:3]`: the padding of an R-type word. -/
def fieldPad (w : Word) : BitVec 3 := w.extractLsb' 3 3

/-- `w[2:0]`: the function code of an R-type word. -/
def fieldFn (w : Word) : BitVec 3 := w.extractLsb' 0 3

/-- `w[8:0]`: the immediate of an I-type word. -/
def fieldImm (w : Word) : BitVec 9 := w.extractLsb' 0 9

/-- `w[11:0]`: the target of a jump word. -/
def fieldTgt (w : Word) : BitVec 12 := w.extractLsb' 0 12

/-- The character `0` or `1` of a bit (R35). -/
def bitChar (b : Bool) : Chr := if b then 0x31#8 else 0x30#8

/-- `text(w)`: the nineteen characters of a word, leftmost bit 18 (R35; log entry 25). -/
def wordText (w : Word) : Str := (List.range 19).map fun i => bitChar (w.getLsbD (18 - i))

end Sys2Proof.Machine
end

