-- ==== Sys2Proof/Machine/Tokenizer.lean ====
section
/-! DEFINITION. The tokenizer of spec/30_encoding.md R66 to R71 (log entries 8 to 11). -/

namespace Sys2Proof.Machine

/-- Horizontal whitespace: space and tab, no other (R66; log entry 8). -/
def isWs (c : Chr) : Bool := c == 0x20#8 || c == 0x09#8

/-- `lower` of one character: `A` to `Z` by 0x20 higher, every other unchanged (R9; log entry 11). -/
def lowerChr (c : Chr) : Chr := if 0x41#8 ≤ c ∧ c ≤ 0x5A#8 then c + 0x20#8 else c

/-- `lower` of a string (R9). -/
def lower (s : Str) : Str := s.map lowerChr

/-- Step 1 (R66): without the longest prefix and the longest suffix of whitespace. -/
def trim (l : Str) : Str := ((l.dropWhile isWs).reverse.dropWhile isWs).reverse

/-- The maximal runs of non-whitespace characters, left to right; `run` is the run so far, reversed. -/
def rawTokensFrom (run : Str) : Str → List Tok
  | [] => if run = [] then [] else [run.reverse]
  | c :: cs =>
    if isWs c then
      if run = [] then rawTokensFrom [] cs else run.reverse :: rawTokensFrom [] cs
    else rawTokensFrom (c :: run) cs

/-- Step 3 (R68): the raw tokens of a trimmed line. -/
def rawTokens (l : Str) : List Tok := rawTokensFrom [] l

/-- Step 4 (a) (R69): one trailing comma removed, if present. -/
def stripComma (t : Tok) : Tok := if t.getLast? = some 0x2C#8 then t.dropLast else t

/-- Step 4 (b) (R69): not empty, and the last character is `#` (log entry 10). -/
def endsWithHash (t : Tok) : Bool := t.getLast? == some 0x23#8

/-- Step 4 (R69): commas stripped left to right up to the first token that ends with `#`; a token left
empty by the comma stays a token (log entry 9). -/
def cleanTokens : List Tok → List Tok
  | [] => []
  | r :: rs => if endsWithHash (stripComma r) then [] else stripComma r :: cleanTokens rs

/-- Step 5 (R70): only token 0 is lower-cased. -/
def lowerFirst : List Tok → List Tok
  | [] => []
  | t :: ts => lower t :: ts

/-- R71: the token line of a raw line; empty means skip. Step 2 (R67) is the test for a blank line or
a first character `;`. -/
def tokenize (line : Str) : List Tok :=
  if trim line = [] ∨ (trim line).head? = some 0x3B#8 then []
  else lowerFirst (cleanTokens (rawTokens (trim line)))

end Sys2Proof.Machine
end

