-- ==== Sys2Proof/Machine/Numeral.lean ====
section
/-! DEFINITION. Numerals: their grammar and value (spec/40_common_and_operands.md R85 to R87, R90; log
entries 12 and 13), and the decimal numeral `dec(v)` of an integer (R91). -/

namespace Sys2Proof.Machine

/-- The positional value of a digit string (R86, R87, R90 (a)): exact, of any size. -/
def digitsValue (base : Nat) (ds : Str) : Nat :=
  ds.foldl (fun n d => base * n + (d.toNat - 0x30)) 0

/-- One of the characters `0`, `1`. -/
def isBinDigit (c : Chr) : Bool := c == 0x30#8 || c == 0x31#8

/-- One of the characters `0` to `9`. -/
def isDecDigit (c : Chr) : Bool := 0x30#8 ≤ c && c ≤ 0x39#8

/-- A digit string of one or more digits and its value; none where it is no such string. -/
def parseDigits (base : Nat) (isDigit : Chr → Bool) (ds : Str) : Option Nat :=
  if ds ≠ [] ∧ ds.all isDigit then some (digitsValue base ds) else none

/-- R86: the token is `0b` and one or more binary digits. The caller has seen the prefix. -/
def parseBinary (t : Tok) : Option Int :=
  (parseDigits 2 isBinDigit (t.drop 2)).map Int.ofNat

/-- R87: an optional single minus sign and one or more decimal digits. -/
def parseDecimal : Tok → Option Int
  | [] => none
  | c :: cs =>
    if c = 0x2D#8 then (parseDigits 10 isDecDigit cs).map fun n : Nat => -(n : Int)
    else (parseDigits 10 isDecDigit (c :: cs)).map Int.ofNat

/-- The token begins with the characters `0b` (R85: the lower-case letter only). -/
def hasBinPrefix (t : Tok) : Bool := t.take 2 == [0x30#8, 0x62#8]

/-- R85: the form is chosen by the first two characters alone; none is a malformed numeral. -/
def parseNumeral (t : Tok) : Option Int :=
  if hasBinPrefix t then parseBinary t else parseDecimal t

/-- The character of a decimal digit. -/
def digitChar (d : Nat) : Chr := BitVec.ofNat 8 (0x30 + d)

/-- The decimal digits of a number, most significant first, on `fuel` of at least the number. -/
def decDigits : Nat → Nat → Str
  | 0, n => [digitChar (n % 10)]
  | fuel + 1, n => if n < 10 then [digitChar n] else decDigits fuel (n / 10) ++ [digitChar (n % 10)]

/-- `dec(v)`: the decimal numeral of an integer (R91). -/
def decNumeral (v : Int) : Tok :=
  if v < 0 then 0x2D#8 :: decDigits v.natAbs v.natAbs else decDigits v.natAbs v.natAbs

end Sys2Proof.Machine
end

