-- ==== Sys2Proof/WellFormed.lean ====
section
/-! DEFINITION. When an instruction is well formed: the token count of its shape (spec/40_common_and_operands.md
R83), register names in the register positions (R84), a numeral in the numeral position (R85) and its value in
the field's range (R88, R89). An ill-formed instruction is one whose meaning takes an encoding error
(spec/60_exceptions.md R143). -/

namespace Sys2Proof

open Machine

/-- The token count is the one the shape requires (R83). -/
def Instr.arityOk (i : Instr) : Bool := i.args.length == operandCount (mnemonicShape i.mnemonic)

/-- The operand tokens in register positions (R54): all of an R-type line, the first two of an I-type
line, none of a jump. -/
def Instr.regArgs (i : Instr) : List Tok :=
  match mnemonicShape i.mnemonic with
  | .r => i.args
  | .i => i.args.take 2
  | .j => []

/-- The operand tokens in numeral positions (R54): the third of an I-type line, the first of a jump. -/
def Instr.numArgs (i : Instr) : List Tok :=
  match mnemonicShape i.mnemonic with
  | .r => []
  | .i => i.args.drop 2
  | .j => i.args

/-- Every register position holds one of the eight names (R84). -/
def Instr.regsOk (i : Instr) : Bool := i.regArgs.all fun t => (lookupReg regTabRows t).isSome

/-- Every numeral position holds a numeral (R85). -/
def Instr.numeralsOk (i : Instr) : Bool := i.numArgs.all fun t => (parseNumeral t).isSome

/-- The range of the numeral field of a shape (R88, R89). -/
def numRange : Shape → Int × Int
  | .r => (0, 0)
  | .i => (immMin, immMax)
  | .j => (tgtMin, tgtMax)

/-- Every numeral's value lies in its field's range (R88, R89). -/
def Instr.rangesOk (i : Instr) : Bool := i.numArgs.all fun t =>
  match parseNumeral t with
  | none => true
  | some v => (numRange (mnemonicShape i.mnemonic)).1 ≤ v && v ≤ (numRange (mnemonicShape i.mnemonic)).2

/-- The instruction encodes: its line raises no error (R63, R143). -/
def Instr.WellFormed (i : Instr) : Bool := i.arityOk && i.regsOk && i.numeralsOk && i.rangesOk

end Sys2Proof
end

