-- ==== Sys2Proof/Decode.lean ====
section
/-! DEFINITION. Reading instructions: from a token line (spec/40_common_and_operands.md R82: the block's own
look-up of the mnemonic) and from a 19-bit word (spec/30_encoding.md R58, R59, R62, spec/92_eei_decisions.md
D22: a decoder of the opcode table, outside the block; log entry 22), and the encoder that goes with it. -/

namespace Sys2Proof

open Machine

/-- The operands of an instruction as its word holds them (R51, R52, R53). -/
inductive Fields where
  | r (rd ra rb : BitVec 3)
  | i (ra rb : BitVec 3) (imm : BitVec 9)
  | j (tgt : BitVec 12)
  deriving DecidableEq, Repr

/-- The shape of the operands. -/
def fieldsShape : Fields → Shape
  | .r _ _ _ => .r
  | .i _ _ _ => .i
  | .j _ => .j

/-- The canonical spelling of a register: `r` and its digit (R12). -/
def regName (r : BitVec 3) : Tok := [0x72#8, 0x30#8 + r.setWidth 8]

/-- The canonical operand tokens: names and decimal numerals, in source order (R65, R91). -/
def spellArgs : Fields → List Tok
  | .r rd ra rb => [regName rd, regName ra, regName rb]
  | .i ra rb imm => [regName ra, regName rb, decNumeral imm.toInt]
  | .j tgt => [decNumeral tgt.toNat]

/-- Operands with a comma and a space between them (R65). -/
def commaJoin : List Tok → Str
  | [] => []
  | [t] => t
  | t :: ts => t ++ 0x2C#8 :: 0x20#8 :: commaJoin ts

/-- The canonical source line of a mnemonic and its operand tokens (R65). -/
def spellLine (m : Mnemonic) (args : List Tok) : Str :=
  mnemonicName m ++ 0x20#8 :: commaJoin args

/-- The instruction in its canonical spelling. -/
def spell (m : Mnemonic) (f : Fields) : Instr := m.instr (spellLine m (spellArgs f)) (spellArgs f)

/-- The mnemonic a function code selects (R59). -/
def decodeFn (c : Codes) (fn : BitVec 3) : Option Mnemonic :=
  if fn = fnAdd then some .add
  else if fn = c.fnSub then some .sub
  else if fn = c.fnAnd then some .and
  else if fn = c.fnOr then some .or
  else if fn = c.fnSlt then some .slt
  else if fn = c.fnMvz then some .mvz
  else none

/-- The I-type mnemonic an opcode selects (R58). -/
def decodeOpcI (c : Codes) (opc : BitVec 4) : Option Mnemonic :=
  if opc = c.opcAddi then some .addi
  else if opc = c.opcAndi then some .andi
  else if opc = c.opcLw then some .lw
  else if opc = c.opcLea then some .lea
  else if opc = c.opcSw then some .sw
  else if opc = c.opcPcm then some .pcm
  else if opc = c.opcBeq then some .beq
  else none

/-- The row and the operands of a word; none for a word outside the encoder's image (R58, R59, R62):
opcode, padding and function code are matched exactly. -/
def decodeFields (c : Codes) (w : Word) : Option (Mnemonic × Fields) :=
  if fieldOpcode w = opcR then
    if fieldPad w = pad then
      (decodeFn c (fieldFn w)).map fun m => (m, .r (fieldRd w) (fieldHi w) (fieldMid w))
    else none
  else if fieldOpcode w = opcJump then
    if fieldHi w = pad then some (.jump, .j (fieldTgt w)) else none
  else
    (decodeOpcI c (fieldOpcode w)).map fun m => (m, .i (fieldMid w) (fieldHi w) (fieldImm w))

/-- The instruction a word encodes, canonically spelled; none for a word that encodes none. -/
def decode (c : Codes) (w : Word) : Option Instr := (decodeFields c w).map fun (m, f) => spell m f

/-- A numeral token's value where it lies in the range of the shape's field (R88, R89). -/
def numeralIn (sh : Shape) (t : Tok) : Option Int :=
  match parseNumeral t with
  | none => none
  | some v => if (numRange sh).1 ≤ v ∧ v ≤ (numRange sh).2 then some v else none

/-- The operands that a shape's tokens spell; none where the line is ill formed. -/
def resolve (sh : Shape) (args : List Tok) : Option Fields :=
  match sh, args with
  | .r, [t1, t2, t3] =>
    match lookupReg regTabRows t1, lookupReg regTabRows t2, lookupReg regTabRows t3 with
    | some rd, some ra, some rb => some (.r rd ra rb)
    | _, _, _ => none
  | .i, [t1, t2, t3] =>
    match lookupReg regTabRows t1, lookupReg regTabRows t2, numeralIn .i t3 with
    | some ra, some rb, some v => some (.i ra rb (immField v))
    | _, _, _ => none
  | .j, [t1] => (numeralIn .j t1).map fun v => .j (tgtField v)
  | _, _ => none

/-- The word of a table cell and operands of its shape (R51, R52, R53). -/
def packFields : OpEntry → Fields → Option Word
  | .r fn, .r rd ra rb => some (packR fn ra rb rd)
  | .i opc, .i ra rb imm => some (packI opc rb ra imm)
  | .j, .j tgt => some (packJ tgt)
  | _, _ => none

/-- The word of a well-formed instruction; none for an ill-formed one. -/
def encode (c : Codes) (i : Instr) : Option Word :=
  (resolve (mnemonicShape i.mnemonic) i.args).bind (packFields (opEntry c i.mnemonic))

/-- The canonical spelling of a well-formed instruction; an ill-formed one as it stands. -/
def canonical (i : Instr) : Instr :=
  match resolve (mnemonicShape i.mnemonic) i.args with
  | some f => spell i.mnemonic f
  | none => i

/-- The decoder on a word numbered as spec/opcode_table.json numbers its bits: the low `nbits` bits of
`w`, every bit of the instruction above them zero; none where a bit above bit 18 is set. -/
def decodeTableWord (nbits w : Nat) : Option Instr :=
  if w % 2 ^ nbits < 2 ^ 19 then decode Config.codes (BitVec.ofNat 19 (w % 2 ^ nbits)) else none

end Sys2Proof
end

