-- ==== Sys2Proof/Machine/State.lean ====
section
/-! DEFINITION. The state of the encoder as plain data (spec/10_state.md R11 to R17, R23), its error events
(spec/60_exceptions.md R130, R136), its inputs and results (R24), and the ways a step can stop. -/

namespace Sys2Proof.Machine

/-- The five kinds of error (R130). -/
inductive ErrorKind where
  | arity | invalidRegister | range | unknownInstruction | malformedNumeral
  deriving DecidableEq, Repr

/-- A raised error with the information its kind records (R131 to R135). -/
inductive EncError where
  /-- The token count is not the one the shape requires (R131). -/
  | arity (expected found : Nat)
  /-- A token in a register position is no register name (R132). -/
  | invalidRegister (token : Tok)
  /-- A numeral's value lies beyond the bound (R133). -/
  | range (token : Tok) (bound : Int)
  /-- Token 0 is no mnemonic (R134). -/
  | unknownInstruction (token : Tok)
  /-- A token in a numeral position is no numeral (R135). -/
  | malformedNumeral (token : Tok)
  deriving DecidableEq, Repr

/-- The record of one error (R136; log entries 15 and 16). -/
structure ErrorEvent where
  line : Str
  kind : ErrorKind
  code : BitVec 3
  token : Option Tok
  bound : Option Int
  expected : Option Nat
  found : Option Nat
  deriving DecidableEq, Repr

/-- The inputs of the block (R24). -/
inductive Input where
  | reset
  | line (l : Str)
  | srcFail
  deriving DecidableEq, Repr

/-- The results the block hands to the host (R24, R146). -/
inductive Result where
  | skip
  | word (w : Word)
  | error (e : ErrorEvent)
  | ignored
  | fatal
  deriving DecidableEq, Repr

/-- The block's state (R11) and, below it, what a closed model holds beside it: the parameters LINE_MAX
and TOK_MAX (R5), the model's own mark that a RESET has been handled (R23), and the two sides of the
interface of R24, the inputs not yet taken and the results given since the last RESET. -/
structure State where
  /-- REGTAB (R12) -/
  regtab : RegTab
  /-- OPTAB (R13) -/
  optab : OpTab
  /-- OUT (R15) -/
  out : List Word
  /-- ERR (R16) -/
  err : List ErrorEvent
  /-- LEAD (R17) -/
  lead : Bool
  /-- HALT (R17) -/
  halt : Bool
  /-- The model's own: the first RESET has been handled (R23, U10; log entry 5). -/
  started : Bool
  /-- LINE_MAX, the longest line accepted; none is no bound (R5, D18; log entry 4). -/
  lineMax : Option Nat
  /-- TOK_MAX, the most tokens of a line; none is no bound (R5, D18; log entry 4). -/
  tokMax : Option Nat
  /-- The model's own: the host's inputs not yet taken, next first (R24; log entry 1). -/
  pending : List Input
  /-- The model's own: the results since the last RESET, oldest first (R24, U18; log entry 6). -/
  results : List Result
  deriving DecidableEq, Repr

/-- Why the machine is stuck. -/
inductive Fault where
  /-- Raised by the step on a LINE or SRC_FAIL input before the first RESET, which the spec says has no
  step (R23, U10: stuck). Safe: the model stops where the spec says nothing (log entry 5). -/
  | inputBeforeReset
  deriving DecidableEq, Repr

/-- Why the model gives an input no meaning. -/
inductive Refusal where
  /-- An instruction that has no meaning in the model yet, named as the table names it. Raised only by
  an arm of exec; no arm raises it now. Safe. -/
  | notModelled (mnemonic : String)
  /-- Raised by the line step on a line of more characters than LINE_MAX, in a realisation that sets it
  (D18, U15: refuse). Safe: never raised at the spec's default (log entry 4). -/
  | lineTooLong
  /-- Raised by the line step on a line of more tokens than TOK_MAX, in a realisation that sets it (D18,
  U15: refuse). Safe: never raised at the spec's default (log entry 4). -/
  | tooManyTokens
  deriving DecidableEq, Repr

/-- The state after RESET has been handled to its end (R23); nothing presented, no bound set. -/
def State.reset : State where
  regtab := regTabRows
  optab := opTabRows Config.codes
  out := [zeroWord]
  err := []
  lead := true
  halt := false
  started := true
  lineMax := none
  tokMax := none
  pending := []
  results := []

end Sys2Proof.Machine
end

