-- ==== Sys2Proof/Machine/Flags.lean ====
section
/-! DEFINITION. The two sequencing flags LEAD and HALT (spec/10_state.md R17). The block has no condition
codes and no instruction writes a flag (R21); the code of a result is an output, not a flag. -/

namespace Sys2Proof.Machine

/-- The leading zero word (R161): emitted if LEAD is 0, and LEAD set. -/
def emitLeadingWord (s : State) : State :=
  if s.lead = false then { s with out := s.out ++ [zeroWord], lead := true } else s

/-- HALT set: the first report of a source failure (R146). -/
def setHalt (s : State) : State := { s with halt := true }

/-- Both flags cleared, as the first part of the reset sequence does (R160). -/
def clearFlags (s : State) : State := { s with lead := false, halt := false }

end Sys2Proof.Machine
end

