-- ==== Sys2Proof/Machine/Ops.lean ====
section
/-! DEFINITION. The named operations of the machine: appending a word (spec/10_state.md R15), taking an error and
returning from it (spec/60_exceptions.md R140, R141), skipping and ignoring, source failure (R146) and the
reset sequence (spec/70_reset_and_hazards.md R160, R161). The block has no memory to operate on (spec/20_memory.md
R30; log entry 30). -/

namespace Sys2Proof.Machine

/-- The 3-bit code of an error kind (R130; log entry 15). -/
def kindCode : ErrorKind → BitVec 3
  | .arity => 1#3
  | .invalidRegister => 2#3
  | .range => 3#3
  | .unknownInstruction => 4#3
  | .malformedNumeral => 5#3

/-- The kind of a raised error. -/
def errorKind : EncError → ErrorKind
  | .arity _ _ => .arity
  | .invalidRegister _ => .invalidRegister
  | .range _ _ => .range
  | .unknownInstruction _ => .unknownInstruction
  | .malformedNumeral _ => .malformedNumeral

/-- The offending token, none for ArityError (R136). -/
def errorToken : EncError → Option Tok
  | .arity _ _ => none
  | .invalidRegister t => some t
  | .range t _ => some t
  | .unknownInstruction t => some t
  | .malformedNumeral t => some t

/-- The violated bound, RangeError only (R136). -/
def errorBound : EncError → Option Int
  | .range _ b => some b
  | _ => none

/-- The required token count, ArityError only (R136). -/
def errorExpected : EncError → Option Nat
  | .arity n _ => some n
  | _ => none

/-- The token count found, ArityError only (R136). -/
def errorFound : EncError → Option Nat
  | .arity _ n => some n
  | _ => none

/-- `ErrorEvent(line, K, info)` (R136). -/
def eventOf (line : Str) (e : EncError) : ErrorEvent where
  line := line
  kind := errorKind e
  code := kindCode (errorKind e)
  token := errorToken e
  bound := errorBound e
  expected := errorExpected e
  found := errorFound e

/-- The code of a result (R130, R149): 0 for SKIP and WORD, the event's code for ERROR; IGNORED and
FATAL have none. -/
def resultCode : Result → Option (BitVec 3)
  | .skip => some 0#3
  | .word _ => some 0#3
  | .error e => some e.code
  | .ignored => none
  | .fatal => none

/-- A result handed to the host (R24). -/
def recordResult (r : Result) (s : State) : State := { s with results := s.results ++ [r] }

/-- `OUT <- OUT ++ [w]`, with the result WORD(w) (R15, R24). -/
def emitWord (w : Word) (s : State) : State := recordResult (.word w) { s with out := s.out ++ [w] }

/-- TAKING AN ERROR (R140): the event is appended to ERR and is the step's result; nothing else of the
state changes: no handler, no vector, no mode, no saved address. -/
def takeError (line : Str) (e : EncError) (s : State) : State :=
  recordResult (.error (eventOf line e)) { s with err := s.err ++ [eventOf line e] }

/-- RETURN FROM AN ERROR (R141): implicit and immediate, with nothing to restore or to re-enable. -/
def returnFromError (s : State) : State := s

/-- The end of a line that is an instruction (R80): its word appended, or its error taken. -/
def settle (line : Str) (r : Except EncError Word) (s : State) : State :=
  match r with
  | .ok w => emitWord w s
  | .error e => returnFromError (takeError line e s)

/-- A blank or comment line: no word, no error, result SKIP (R80, R149). -/
def skipLine (s : State) : State := recordResult .skip s

/-- An input while HALT is 1: result IGNORED (R146, R147). -/
def ignoreInput (s : State) : State := recordResult .ignored s

/-- SRC_FAIL (R146): FATAL and HALT set the first time, IGNORED after it. -/
def srcFail (s : State) : State :=
  if s.halt = false then recordResult .fatal (setHalt s) else ignoreInput s

/-- RESET (R160): OUT and ERR emptied, the flags cleared, the leading zero word emitted. The tables and
the parameters are not touched; the results of the run before are discarded with it. -/
def resetBlock (s : State) : State :=
  emitLeadingWord (clearFlags { s with out := [], err := [], started := true, results := [] })

end Sys2Proof.Machine
end

