-- ==== Sys2Proof/Machine/Operands.lean ====
section
/-! DEFINITION. The encoder's common steps and operand sub-encoders (spec/40_common_and_operands.md R82 to R89):
mnemonic, token count, register, numeral, immediate, jump target. Every operand form of R73. -/

namespace Sys2Proof.Machine

/-- R82: the row of the lower-cased token, or UnknownInstructionError with the token as given. -/
def classify (ot : OpTab) (t : Tok) : Except EncError (Mnemonic × OpEntry) :=
  match lookupOp ot (lower t) with
  | some row => .ok row
  | none => .error (.unknownInstruction t)

/-- R83 for a shape of four tokens: the three operands, or ArityError with the mnemonic counted. -/
def threeOperands (args : List Tok) : Except EncError (Tok × Tok × Tok) :=
  match args with
  | [t1, t2, t3] => .ok (t1, t2, t3)
  | _ => .error (.arity 4 (args.length + 1))

/-- R83 for the shape of two tokens: the one operand, or ArityError with the mnemonic counted. -/
def oneOperand (args : List Tok) : Except EncError Tok :=
  match args with
  | [t1] => .ok t1
  | _ => .error (.arity 2 (args.length + 1))

/-- R84: `reg`, the index of a register name, or InvalidRegisterError. -/
def reg (rt : RegTab) (t : Tok) : Except EncError (BitVec 3) :=
  match lookupReg rt t with
  | some r => .ok r
  | none => .error (.invalidRegister t)

/-- R85: the value of a numeral token, or MalformedNumeralError. -/
def numeral (t : Tok) : Except EncError Int :=
  match parseNumeral t with
  | some v => .ok v
  | none => .error (.malformedNumeral t)

/-- R88: `imm9`, parse, then the upper bound, then the lower. -/
def imm9 (t : Tok) : Except EncError (BitVec 9) :=
  match numeral t with
  | .error e => .error e
  | .ok v =>
    if v > immMax then .error (.range t immMax)
    else if v < immMin then .error (.range t immMin)
    else .ok (immField v)

/-- R89: `tgt12`, parse, then the lower bound, then the upper. -/
def tgt12 (t : Tok) : Except EncError (BitVec 12) :=
  match numeral t with
  | .error e => .error e
  | .ok v =>
    if v < tgtMin then .error (.range t tgtMin)
    else if v > tgtMax then .error (.range t tgtMax)
    else .ok (tgtField v)

end Sys2Proof.Machine
end

