-- ==== Sys2Proof/Machine/IType.lean ====
section
/-! DEFINITION. The I-type instructions (spec/42_itype.md R110 to R117). -/

namespace Sys2Proof.Machine

/-- `encode_I(opc, toks)` of R110: the token count, then token 2, token 1 and the immediate, in the order
of their fields (log entry 14). -/
def encodeI (rt : RegTab) (opc : BitVec 4) (args : List Tok) : Except EncError Word := do
  let (t1, t2, t3) ← threeOperands args
  let fb ← reg rt t2
  let fa ← reg rt t1
  let im ← imm9 t3
  return packI opc fb fa im

/-- The opcode of an I-type mnemonic from its OPTAB row (R13). A table without such a row is no table of
R13; there the look-up fails as R82 says (log entry 28). -/
def rowOpcode (ot : OpTab) (mn : Mnemonic) : Except EncError (BitVec 4) :=
  match entryOf ot mn with
  | some (.i opc) => .ok opc
  | _ => .error (.unknownInstruction (mnemonicName mn))

/-- What an I-type line does: `encode_I` with its mnemonic's opcode, and the word appended or the error
taken (R80, R110). -/
def runI (mn : Mnemonic) (line : Str) (args : List Tok) (s : State) :
    Host.Outcome State Fault Refusal :=
  .next (settle line (do encodeI s.regtab (← rowOpcode s.optab mn) args) s)

/-- `addi ra, rb, imm` (R111). -/
def execAddi (line : Str) (args : List Tok) (s : State) : Host.Outcome State Fault Refusal :=
  runI .addi line args s

/-- `andi ra, rb, imm` (R112). -/
def execAndi (line : Str) (args : List Tok) (s : State) : Host.Outcome State Fault Refusal :=
  runI .andi line args s

/-- `lw ra, rb, imm` (R113). -/
def execLw (line : Str) (args : List Tok) (s : State) : Host.Outcome State Fault Refusal :=
  runI .lw line args s

/-- `lea ra, rb, imm` (R114). -/
def execLea (line : Str) (args : List Tok) (s : State) : Host.Outcome State Fault Refusal :=
  runI .lea line args s

/-- `sw ra, rb, imm` (R115). -/
def execSw (line : Str) (args : List Tok) (s : State) : Host.Outcome State Fault Refusal :=
  runI .sw line args s

/-- `pcm ra, rb, imm` (R116). -/
def execPcm (line : Str) (args : List Tok) (s : State) : Host.Outcome State Fault Refusal :=
  runI .pcm line args s

/-- `beq ra, rb, imm` (R117). -/
def execBeq (line : Str) (args : List Tok) (s : State) : Host.Outcome State Fault Refusal :=
  runI .beq line args s

end Sys2Proof.Machine
end

