-- ==== Sys2Proof/Machine/JType.lean ====
section
/-! DEFINITION. The jump instruction (spec/43_jump.md R120). It transfers no control of this block (R121). -/

namespace Sys2Proof.Machine

/-- `encode_J(toks)` of R120: the token count, then the target. -/
def encodeJ (args : List Tok) : Except EncError Word := do
  let t1 ← oneOperand args
  let tg ← tgt12 t1
  return packJ tg

/-- The OPTAB row of a jump mnemonic (R13). A table without such a row is no table of R13; there the
look-up fails as R82 says (log entry 28). -/
def rowJump (ot : OpTab) (mn : Mnemonic) : Except EncError Unit :=
  match entryOf ot mn with
  | some .j => .ok ()
  | _ => .error (.unknownInstruction (mnemonicName mn))

/-- What a jump line does: `encode_J`, and the word appended or the error taken (R80, R120). -/
def runJ (mn : Mnemonic) (line : Str) (args : List Tok) (s : State) :
    Host.Outcome State Fault Refusal :=
  .next (settle line (do rowJump s.optab mn; encodeJ args) s)

/-- `jump target` (R120). -/
def execJump (line : Str) (args : List Tok) (s : State) : Host.Outcome State Fault Refusal :=
  runJ .jump line args s

end Sys2Proof.Machine
end

