-- ==== Sys2Proof/Machine/RType.lean ====
section
/-! DEFINITION. The R-type instructions (spec/41_rtype.md R100 to R106). -/

namespace Sys2Proof.Machine

/-- `encode_R(fn, toks)` of R100: the token count, then token 2, token 3 and token 1, in the order of their
fields (log entry 14). -/
def encodeR (rt : RegTab) (fn : BitVec 3) (args : List Tok) : Except EncError Word := do
  let (t1, t2, t3) ← threeOperands args
  let sa ← reg rt t2
  let sb ← reg rt t3
  let rd ← reg rt t1
  return packR fn sa sb rd

/-- The function code of an R-type mnemonic from its OPTAB row (R13). A table without such a row is no
table of R13; there the look-up fails as R82 says (log entry 28). -/
def rowFn (ot : OpTab) (mn : Mnemonic) : Except EncError (BitVec 3) :=
  match entryOf ot mn with
  | some (.r fn) => .ok fn
  | _ => .error (.unknownInstruction (mnemonicName mn))

/-- What an R-type line does: `encode_R` with its mnemonic's function code, and the word appended or the
error taken (R80, R100). -/
def runR (mn : Mnemonic) (line : Str) (args : List Tok) (s : State) :
    Host.Outcome State Fault Refusal :=
  .next (settle line (do encodeR s.regtab (← rowFn s.optab mn) args) s)

/-- `add rd, ra, rb` (R101). -/
def execAdd (line : Str) (args : List Tok) (s : State) : Host.Outcome State Fault Refusal :=
  runR .add line args s

/-- `sub rd, ra, rb` (R102). -/
def execSub (line : Str) (args : List Tok) (s : State) : Host.Outcome State Fault Refusal :=
  runR .sub line args s

/-- `and rd, ra, rb` (R103). -/
def execAnd (line : Str) (args : List Tok) (s : State) : Host.Outcome State Fault Refusal :=
  runR .and line args s

/-- `or rd, ra, rb` (R104). -/
def execOr (line : Str) (args : List Tok) (s : State) : Host.Outcome State Fault Refusal :=
  runR .or line args s

/-- `slt rd, ra, rb` (R105). -/
def execSlt (line : Str) (args : List Tok) (s : State) : Host.Outcome State Fault Refusal :=
  runR .slt line args s

/-- `mvz rd, ra, rb` (R106). -/
def execMvz (line : Str) (args : List Tok) (s : State) : Host.Outcome State Fault Refusal :=
  runR .mvz line args s

end Sys2Proof.Machine
end

