-- ==== Sys2Proof/Machine/Dispatch.lean ====
section
/-! DEFINITION. exec: the meaning of every instruction, one arm per constructor of Instr. -/

namespace Sys2Proof.Machine

def exec (i : Instr) (s : State) : Host.Outcome State Fault Refusal :=
  match i with
  | .add line args => Sys2Proof.Machine.execAdd line args s
  | .sub line args => Sys2Proof.Machine.execSub line args s
  | .and line args => Sys2Proof.Machine.execAnd line args s
  | .or line args => Sys2Proof.Machine.execOr line args s
  | .slt line args => Sys2Proof.Machine.execSlt line args s
  | .mvz line args => Sys2Proof.Machine.execMvz line args s
  | .addi line args => Sys2Proof.Machine.execAddi line args s
  | .andi line args => Sys2Proof.Machine.execAndi line args s
  | .lw line args => Sys2Proof.Machine.execLw line args s
  | .lea line args => Sys2Proof.Machine.execLea line args s
  | .sw line args => Sys2Proof.Machine.execSw line args s
  | .pcm line args => Sys2Proof.Machine.execPcm line args s
  | .beq line args => Sys2Proof.Machine.execBeq line args s
  | .jump line args => Sys2Proof.Machine.execJump line args s

end Sys2Proof.Machine
end

