-- ==== Sys2Proof/Machine/LineStep.lean ====
section
/-! DEFINITION. The line step (spec/40_common_and_operands.md R80, spec/60_exceptions.md R147), the inner interface
`encode(tokens)` and the pure function `line_result` (R80, R81), the taking of each input (spec/10_state.md R24), and
the source line that stands for a word of the opcode table (log entry 2). -/

namespace Sys2Proof.Machine

/-- A size lies within an optional bound (R5: LINE_MAX, TOK_MAX; none is no bound). -/
def withinBound (bound : Option Nat) (n : Nat) : Bool :=
  match bound with
  | none => true
  | some m => n ≤ m

/-- The `case e.class` of R81, on the row that classify found. -/
def encodeRow (rt : RegTab) (e : OpEntry) (args : List Tok) : Except EncError Word :=
  match e with
  | .j => encodeJ args
  | .r fn => encodeR rt fn args
  | .i opc => encodeI rt opc args

/-- R81: the source's `encode(tokens)`; an empty token line is a skip, here `none` (D17; log entry 19). -/
def encodeTokens (rt : RegTab) (ot : OpTab) (toks : List Tok) : Except EncError (Option Word) :=
  match toks with
  | [] => .ok none
  | t :: args => do
    let row ← classify ot t
    let w ← encodeRow rt row.2 args
    return some w

/-- R80: `line_result`, the pure function of the tables and the line. -/
def lineResult (rt : RegTab) (ot : OpTab) (line : Str) : Result :=
  match encodeTokens rt ot (tokenize line) with
  | .ok none => .skip
  | .ok (some w) => .word w
  | .error e => .error (eventOf line e)

/-- What the block reads from a line: nothing, an instruction, or an unknown mnemonic (R71, R82). -/
inductive Fetched where
  | nothing
  | instr (i : Instr)
  | unknown (token : Tok)
  deriving DecidableEq, Repr

/-- The token line of a raw line read as an instruction (R71, R82). -/
def fetchLine (ot : OpTab) (line : Str) : Fetched :=
  match tokenize line with
  | [] => .nothing
  | t :: args =>
    match classify ot t with
    | .ok row => .instr (row.1.instr line args)
    | .error _ => .unknown t

/-- R80: the line step. A line is ignored while HALT is 1 (R147); a line beyond a bound that the
realisation sets is refused (D18); else the line is read and run. -/
def lineStep (line : Str) (s : State) : Host.Outcome State Fault Refusal :=
  if s.halt then .next (ignoreInput s)
  else if withinBound s.lineMax line.length = false then .refused .lineTooLong
  else if withinBound s.tokMax (tokenize line).length = false then .refused .tooManyTokens
  else
    match fetchLine s.optab line with
    | .nothing => .next (skipLine s)
    | .instr i => exec i s
    | .unknown t => .next (settle line (.error (.unknownInstruction t)) s)

/-- One input handled to its end (R24). Before the first RESET only RESET has a step (R23, U10). -/
def takeInput (i : Input) (s : State) : Host.Outcome State Fault Refusal :=
  match i with
  | .reset => .next (resetBlock s)
  | .line l => if s.started then lineStep l s else .fault .inputBeforeReset
  | .srcFail => if s.started then .next (srcFail s) else .fault .inputBeforeReset

/-- The source line that stands for a word of the opcode table: the canonical line of its instruction;
for a word of no instruction, which no line encodes to (R61), the word's text (log entry 2). -/
def lineOfTableWord (nbits w : Nat) : Str :=
  match decodeTableWord nbits w with
  | some i => i.line
  | none => wordText (BitVec.ofNat 19 w)

end Sys2Proof.Machine
end

