-- ==== Sys2Proof/Machine/Step.lean ====
section
/-! DEFINITION. The step: the next input the host has presented is taken and handled to its end
(spec/10_state.md R10, R24); with none presented the block waits (log entry 1). -/

namespace Sys2Proof.Machine

/-- One step of the block. -/
def step (s : State) : Host.Outcome State Fault Refusal :=
  match s.pending with
  | [] => .next s
  | i :: rest => takeInput i { s with pending := rest }

/-- The state with the instruction of a table word presented as the next input, after a RESET and not
halted, so that the next step takes it (log entry 2). -/
def State.withFetchWord (s : State) (nbits w : Nat) : State :=
  { s with pending := .line (lineOfTableWord nbits w) :: s.pending, halt := false, started := true }

end Sys2Proof.Machine
end

