-- ==== Sys2Proof/Safety.lean ====
section
/-! DEFINITION. The terms in which claims about the encoder are made: the tables in place, the words of the
encoder's image (spec/30_encoding.md R61), error events of the spec's form (spec/60_exceptions.md R136), the invariant
of every step, and the end of a run (spec/70_reset_and_hazards.md R164). -/

namespace Sys2Proof.Machine

/-- The two tables hold the contents of R12 and of R13 under the record `c` of code values. -/
abbrev State.Tables (c : Codes) (s : State) : Prop := s.regtab = regTabRows ∧ s.optab = opTabRows c

/-- No bound on line length or token count: the spec's default (R5). -/
abbrev State.Unbounded (s : State) : Prop := s.lineMax = none ∧ s.tokMax = none

/-- A line lies within the bounds that the realisation sets (D18). -/
def State.fits (s : State) (line : Str) : Bool :=
  withinBound s.lineMax line.length && withinBound s.tokMax (tokenize line).length

/-- The six function codes of R59. -/
def Codes.fns (c : Codes) : List (BitVec 3) := fnAdd :: c.openFns

/-- The three forms of R61: the words some line encodes to. -/
def InImage (c : Codes) (w : Word) : Prop :=
  (∃ fn ∈ Codes.fns c, ∃ sa sb rd, w = packR fn sa sb rd) ∨
  (∃ opc ∈ c.iOpcodes, ∃ rb ra imm, w = packI opc rb ra imm) ∨
  ∃ tgt, w = packJ tgt

/-- An error event has its kind's code and exactly the fields its kind records (R130, R136). -/
def EventOk (e : ErrorEvent) : Prop :=
  e.code = kindCode e.kind ∧
  (e.token.isSome ↔ e.kind ≠ .arity) ∧
  (e.bound.isSome ↔ e.kind = .range) ∧
  (e.expected.isSome ↔ e.kind = .arity) ∧
  (e.found.isSome ↔ e.kind = .arity) ∧
  (∀ b, e.bound = some b → b ∈ [255, -256, 4095, 0]) ∧
  (∀ n, e.expected = some n → n ∈ [2, 4])

/-- The word of a result, if it is WORD. -/
def resultWord? : Result → Option Word
  | .word w => some w
  | _ => none

/-- The event of a result, if it is ERROR. -/
def resultError? : Result → Option ErrorEvent
  | .error e => some e
  | _ => none

/-- The words of a sequence of results, in order. -/
def wordsOf (rs : List Result) : List Word := rs.filterMap resultWord?

/-- The error events of a sequence of results, in order. -/
def errorsOf (rs : List Result) : List ErrorEvent := rs.filterMap resultError?

/-- What holds of every state after a RESET, whatever the host presents: the tables in place (R14), the
zero word at index 0 (R40) and after it the words of the results in order, the events of the results in
order (R41), HALT set exactly by a FATAL result (R146, R147), every word of the image (R61), every event of
its kind's form (R136). -/
structure Inv (c : Codes) (s : State) : Prop where
  tables : s.Tables c
  started : s.started = true
  lead : s.lead = true
  out_eq : s.out = zeroWord :: wordsOf s.results
  err_eq : s.err = errorsOf s.results
  halt_iff : s.halt = true ↔ Result.fatal ∈ s.results
  image : ∀ w ∈ s.out, InImage c w
  events : ∀ e ∈ s.err, EventOk e

/-- The state with one more word in OUT and its result; every other field as it was. -/
abbrev State.plusWord (s : State) (w : Word) : State :=
  { s with out := s.out ++ [w], results := s.results ++ [.word w] }

/-- The state with one more event in ERR and its result; every other field as it was. -/
abbrev State.plusError (s : State) (e : ErrorEvent) : State :=
  { s with err := s.err ++ [e], results := s.results ++ [.error e] }

/-- The state after one input with result `r`: taken off, its word or its event appended (R24); every
other field as it was. -/
abbrev State.afterResult (s : State) (rest : List Input) (r : Result) : State :=
  { s with
    pending := rest, out := s.out ++ wordsOf [r], err := s.err ++ errorsOf [r],
    results := s.results ++ [r] }

/-- The record of an ArityError (R131, R136): code 1, no token, the count required and the count found. -/
def arityEvent (line : Str) (expected found : Nat) : ErrorEvent :=
  ⟨line, .arity, 1#3, none, none, some expected, some found⟩

/-- The record of an InvalidRegisterError (R132, R136): code 2 and the token. -/
def registerEvent (line : Str) (t : Tok) : ErrorEvent :=
  ⟨line, .invalidRegister, 2#3, some t, none, none, none⟩

/-- The record of a RangeError (R133, R136): code 3, the token and the bound. -/
def rangeEvent (line : Str) (t : Tok) (bound : Int) : ErrorEvent :=
  ⟨line, .range, 3#3, some t, some bound, none, none⟩

/-- The record of an UnknownInstructionError (R134, R136): code 4 and token 0. -/
def unknownEvent (line : Str) (t : Tok) : ErrorEvent :=
  ⟨line, .unknownInstruction, 4#3, some t, none, none, none⟩

/-- The record of a MalformedNumeralError (R135, R136): code 5 and the token. -/
def malformedEvent (line : Str) (t : Tok) : ErrorEvent :=
  ⟨line, .malformedNumeral, 5#3, some t, none, none, none⟩

/-- The value of a digit string as the sum of R86 and R87: digit k times the base to the number of digits
after it. -/
def positionalSum (base : Nat) (ds : Str) : Nat :=
  ∑ k ∈ Finset.range ds.length, ((ds.getD k 0).toNat - 0x30) * base ^ (ds.length - 1 - k)

/-- A token as it stands in a line (R68, R69): perhaps with a trailing comma, and whitespace after it. -/
structure Piece where
  tok : Tok
  comma : Bool
  sep : Str

/-- The characters of a piece. -/
def Piece.text (p : Piece) : Str := p.tok ++ (if p.comma then [0x2C#8] else []) ++ p.sep

/-- The token holds no whitespace and does not end with `#`; without a trailing comma to be dropped it is
not empty and ends with no comma, with one it may be empty (a lone comma) or end with another comma (R69);
the whitespace after it is not empty. -/
def Piece.ok (p : Piece) : Bool :=
  p.tok.all (fun c => !isWs c) && p.tok.getLast? ≠ some 0x23#8 &&
    (p.comma || (p.tok ≠ [] && p.tok.getLast? ≠ some 0x2C#8)) && p.sep ≠ [] && p.sep.all isWs

/-- What follows the last token of a line: nothing, or text that begins with whitespace. -/
def startsBlank (rest : Str) : Bool :=
  match rest with
  | [] => true
  | c :: _ => isWs c

/-- `k` steps of the block, stopping at the first fault or refusal: the host's `run` of the core, by name. -/
def runSteps : Nat → State → Host.Outcome State Fault Refusal
  | 0, s => .next s
  | k + 1, s =>
    match step s with
    | .next t => runSteps k t
    | .fault r => .fault r
    | .refused r => .refused r

/-- A run is over and was not cut short (R164): nothing is left to take and HALT is 0. -/
def State.completed (s : State) : Prop := s.pending = [] ∧ s.halt = false

end Sys2Proof.Machine
end

