-- ==== Sys2Proof/Certificates/Slice0/Obligations.lean ====
section
/-! DEFINITION. The statements for the provers. `c` is any record of the twelve open code values; `Tables`
says that REGTAB and OPTAB hold the rows of spec/10_state.md R12 and R13 (under `c`), which every state
after a RESET does and no step changes. -/

open Sys2Proof Sys2Proof.Machine

/- ## Reset, tables, parameters -/

/-- After RESET: OUT is the zero word alone, ERR is empty, LEAD is 1, HALT is 0, the tables hold their
rows (10_state.md section 9; that reset is an input and what it leaves are the spec's decisions D15, D16,
D23). What the host side holds is the model's own choice (log entries 1, 4, 5, 6). -/
def Obligations.ResetStateHoldsTheSpecsValues : Prop :=
  State.reset.out = [0#19] ∧ State.reset.err = [] ∧ State.reset.lead = true ∧
  State.reset.halt = false ∧ State.reset.Tables Config.codes ∧
  State.reset.started = true ∧ State.reset.Unbounded ∧ State.reset.pending = [] ∧
  State.reset.results = []

/-- A RESET input in any state whatever, halted or not, before the first RESET or after, gives the same
state but for the tables and parameters, which it does not touch (section 1 of 70_reset_and_hazards.md;
decisions D15, D23). -/
def Obligations.ResetInputGivesTheResetStateFromAnyState : Prop :=
  ∀ (s : State) (rest : List Input), s.pending = .reset :: rest →
    step s = .next
      { State.reset with
        regtab := s.regtab, optab := s.optab, lineMax := s.lineMax, tokMax := s.tokMax,
        pending := rest }

/-- REGTAB: the eight names and no other string; index and numeral suffix agree (R12). -/
def Obligations.RegisterNamesAreExactlyTheEightOfTheTable : Prop :=
  ∀ (t : Tok) (i : BitVec 3), lookupReg regTabRows t = some i ↔
    t = [0x72#8, BitVec.ofNat 8 (0x30 + i.toNat)]

/-- OPTAB: the fourteen rows with class, opcode and function code, each found by its exact name and by no
other string (R13). -/
def Obligations.MnemonicTableHoldsExactlyItsFourteenRows : Prop :=
  ∀ c : Codes,
    ((opTabRows c).map fun row =>
      (mnemonicName row.1, entryShape row.2, entryOpcode row.2, entryFn row.2)) =
    [ (str "add", .r, 0b0000#4, some 0b000#3), (str "sub", .r, 0b0000#4, some c.fnSub),
      (str "and", .r, 0b0000#4, some c.fnAnd), (str "or", .r, 0b0000#4, some c.fnOr),
      (str "slt", .r, 0b0000#4, some c.fnSlt), (str "mvz", .r, 0b0000#4, some c.fnMvz),
      (str "addi", .i, c.opcAddi, none), (str "andi", .i, c.opcAndi, none),
      (str "lw", .i, c.opcLw, none), (str "lea", .i, c.opcLea, none),
      (str "sw", .i, c.opcSw, none), (str "pcm", .i, c.opcPcm, none),
      (str "beq", .i, c.opcBeq, none), (str "jump", .j, 0b1111#4, none) ] ∧
    ∀ (t : Str) (m : Mnemonic) (e : OpEntry), lookupOp (opTabRows c) t = some (m, e) ↔
      t = mnemonicName m ∧ e = opEntry c m

/-- No step writes REGTAB or OPTAB: no input, no line, no error, no reset (R14). -/
def Obligations.NoStepWritesTheTables : Prop :=
  ∀ s t : State, step s = .next t → t.regtab = s.regtab ∧ t.optab = s.optab

/-- A step takes exactly the next input, whatever a line encodes to, and changes no parameter: jump and beq
lines transfer no control of this block (43_jump.md section on control transfer, 10_state.md section 7).
With nothing presented the state stays as it is, the model's choice (log entry 1). -/
def Obligations.StepTakesExactlyTheNextInput : Prop :=
  ∀ s t : State, step s = .next t →
    t.pending = s.pending.tail ∧ t.lineMax = s.lineMax ∧ t.tokMax = s.tokMax ∧
    (s.pending = [] → t = s)

/- ## What each instruction emits -/

/-- R51, for the six R-type mnemonics: on three register names the word is 0000, the register written
second, the one written third, the one written first, 000 and the mnemonic's function code; it is appended
to OUT and nothing else but the results changes. -/
def Obligations.RTypeLinesEmitTheirWord : Prop :=
  ∀ (c : Codes) (s : State) (line : Str) (t1 t2 t3 : Tok) (r1 r2 r3 : BitVec 3),
    s.Tables c → lookupReg regTabRows t1 = some r1 → lookupReg regTabRows t2 = some r2 →
    lookupReg regTabRows t3 = some r3 →
    exec (.add line [t1, t2, t3]) s
      = .next (s.plusWord (0b0000#4 ++ r2 ++ r3 ++ r1 ++ 0b000#3 ++ 0b000#3)) ∧
    exec (.sub line [t1, t2, t3]) s
      = .next (s.plusWord (0b0000#4 ++ r2 ++ r3 ++ r1 ++ 0b000#3 ++ c.fnSub)) ∧
    exec (.and line [t1, t2, t3]) s
      = .next (s.plusWord (0b0000#4 ++ r2 ++ r3 ++ r1 ++ 0b000#3 ++ c.fnAnd)) ∧
    exec (.or line [t1, t2, t3]) s
      = .next (s.plusWord (0b0000#4 ++ r2 ++ r3 ++ r1 ++ 0b000#3 ++ c.fnOr)) ∧
    exec (.slt line [t1, t2, t3]) s
      = .next (s.plusWord (0b0000#4 ++ r2 ++ r3 ++ r1 ++ 0b000#3 ++ c.fnSlt)) ∧
    exec (.mvz line [t1, t2, t3]) s
      = .next (s.plusWord (0b0000#4 ++ r2 ++ r3 ++ r1 ++ 0b000#3 ++ c.fnMvz))

/-- R52, for the seven I-type mnemonics: on two register names and a numeral of value -256 to 255, binary
or decimal, the word is the mnemonic's opcode, the register written second, the one written first and the
value in nine bits of two's complement; it is appended to OUT and nothing else but the results changes. -/
def Obligations.ITypeLinesEmitTheirWord : Prop :=
  ∀ (c : Codes) (s : State) (line : Str) (t1 t2 t3 : Tok) (r1 r2 : BitVec 3) (v : Int),
    s.Tables c → lookupReg regTabRows t1 = some r1 → lookupReg regTabRows t2 = some r2 →
    parseNumeral t3 = some v → -256 ≤ v → v ≤ 255 →
    exec (.addi line [t1, t2, t3]) s
      = .next (s.plusWord (c.opcAddi ++ r2 ++ r1 ++ BitVec.ofInt 9 v)) ∧
    exec (.andi line [t1, t2, t3]) s
      = .next (s.plusWord (c.opcAndi ++ r2 ++ r1 ++ BitVec.ofInt 9 v)) ∧
    exec (.lw line [t1, t2, t3]) s
      = .next (s.plusWord (c.opcLw ++ r2 ++ r1 ++ BitVec.ofInt 9 v)) ∧
    exec (.lea line [t1, t2, t3]) s
      = .next (s.plusWord (c.opcLea ++ r2 ++ r1 ++ BitVec.ofInt 9 v)) ∧
    exec (.sw line [t1, t2, t3]) s
      = .next (s.plusWord (c.opcSw ++ r2 ++ r1 ++ BitVec.ofInt 9 v)) ∧
    exec (.pcm line [t1, t2, t3]) s
      = .next (s.plusWord (c.opcPcm ++ r2 ++ r1 ++ BitVec.ofInt 9 v)) ∧
    exec (.beq line [t1, t2, t3]) s
      = .next (s.plusWord (c.opcBeq ++ r2 ++ r1 ++ BitVec.ofInt 9 v))

/-- R53: a jump line whose operand is a numeral of value 0 to 4095, binary or decimal, emits 1111, 000 and
the value in twelve bits; it is appended to OUT and nothing else but the results changes. -/
def Obligations.JumpLineEmitsItsWord : Prop :=
  ∀ (c : Codes) (s : State) (line : Str) (t1 : Tok) (v : Int),
    s.Tables c → parseNumeral t1 = some v → 0 ≤ v → v ≤ 4095 →
    exec (.jump line [t1]) s
      = .next (s.plusWord (0b1111#4 ++ 0b000#3 ++ BitVec.ofInt 12 v))

/-- The word of `add r0, r0, r0` is bit for bit the zero word (30_encoding.md section 4, the spec's
derivation), and a jump to 0 is another. -/
def Obligations.AddOfRegisterZeroEmitsTheZeroWord : Prop :=
  ∀ (c : Codes) (s : State) (line : Str), s.Tables c →
    exec (.add line [str "r0", str "r0", str "r0"]) s = .next (s.plusWord 0#19) ∧
    exec (.jump line [str "0"]) s = .next (s.plusWord 0b1111000000000000000#19)

/- ## Where each instruction takes an error -/

/-- ArityError: for each of the fourteen mnemonics, exactly the token counts other than its shape's, the
mnemonic counted; no operand is looked at (60_exceptions.md section 1; the fields of the record are
decisions D13, D14, log entries 15 and 16). -/
def Obligations.WrongTokenCountTakesArityError : Prop :=
  ∀ (c : Codes) (s : State) (line : Str) (args : List Tok), s.Tables c →
    (args.length ≠ 3 →
      ∀ i ∈ [Instr.add line args, .sub line args, .and line args, .or line args, .slt line args,
          .mvz line args, .addi line args, .andi line args, .lw line args, .lea line args,
          .sw line args, .pcm line args, .beq line args],
        exec i s = .next (s.plusError (arityEvent line 4 (args.length + 1)))) ∧
    (args.length ≠ 1 →
      exec (.jump line args) s = .next (s.plusError (arityEvent line 2 (args.length + 1))))

/-- InvalidRegisterError of an R-type line: the first of token 2, token 3 and token 1 that is no register
name is reported (the order is decision D12, log entry 14; the record decisions D13, D14). -/
def Obligations.RTypeLineReportsItsFirstBadRegister : Prop :=
  ∀ (c : Codes) (s : State) (line : Str) (t1 t2 t3 bad : Tok), s.Tables c →
    [t2, t3, t1].find? (fun t => (lookupReg regTabRows t).isNone) = some bad →
    ∀ i ∈ [Instr.add line [t1, t2, t3], .sub line [t1, t2, t3], .and line [t1, t2, t3],
        .or line [t1, t2, t3], .slt line [t1, t2, t3], .mvz line [t1, t2, t3]],
      exec i s = .next (s.plusError (registerEvent line bad))

/-- InvalidRegisterError of an I-type line: the first of token 2 and token 1 that is no register name is
reported, whatever the immediate is (order D12, log entry 14; record D13, D14). -/
def Obligations.ITypeLineReportsItsFirstBadRegister : Prop :=
  ∀ (c : Codes) (s : State) (line : Str) (t1 t2 t3 bad : Tok), s.Tables c →
    [t2, t1].find? (fun t => (lookupReg regTabRows t).isNone) = some bad →
    ∀ i ∈ [Instr.addi line [t1, t2, t3], .andi line [t1, t2, t3], .lw line [t1, t2, t3],
        .lea line [t1, t2, t3], .sw line [t1, t2, t3], .pcm line [t1, t2, t3],
        .beq line [t1, t2, t3]],
      exec i s = .next (s.plusError (registerEvent line bad))

/-- MalformedNumeralError: an I-type line with two register names, or a jump line, whose numeral position
holds no numeral (grammar D10, log entry 12; record D13, D14). -/
def Obligations.MalformedNumeralIsReported : Prop :=
  ∀ (c : Codes) (s : State) (line : Str) (t : Tok), s.Tables c → parseNumeral t = none →
    (∀ t1 t2 : Tok, (lookupReg regTabRows t1).isSome → (lookupReg regTabRows t2).isSome →
      ∀ i ∈ [Instr.addi line [t1, t2, t], .andi line [t1, t2, t], .lw line [t1, t2, t],
          .lea line [t1, t2, t], .sw line [t1, t2, t], .pcm line [t1, t2, t], .beq line [t1, t2, t]],
        exec i s = .next (s.plusError (malformedEvent line t))) ∧
    exec (.jump line [t]) s = .next (s.plusError (malformedEvent line t))

/-- RangeError: an I-type immediate above 255 or below -256, a jump target below 0 or above 4095, with the
violated bound; never a wrapped field (record D13, D14; exact values of any size D11, log entry 13). -/
def Obligations.OutOfRangeNumeralIsReportedWithItsBound : Prop :=
  ∀ (c : Codes) (s : State) (line : Str) (t : Tok) (v : Int), s.Tables c → parseNumeral t = some v →
    (∀ (t1 t2 : Tok) (bound : Int),
      (lookupReg regTabRows t1).isSome → (lookupReg regTabRows t2).isSome →
      (v > 255 ∧ bound = 255 ∨ v < -256 ∧ bound = -256) →
      ∀ i ∈ [Instr.addi line [t1, t2, t], .andi line [t1, t2, t], .lw line [t1, t2, t],
          .lea line [t1, t2, t], .sw line [t1, t2, t], .pcm line [t1, t2, t], .beq line [t1, t2, t]],
        exec i s = .next (s.plusError (rangeEvent line t bound))) ∧
    ∀ bound : Int, (v < 0 ∧ bound = 0 ∨ v > 4095 ∧ bound = 4095) →
      exec (.jump line [t]) s = .next (s.plusError (rangeEvent line t bound))

/-- Which line can raise which error (60_exceptions.md section 1, the spec's own table): an error that an
instruction takes has a kind of its shape, the record of that kind, and the raw line. -/
def Obligations.TakenErrorIsOneOfItsShape : Prop :=
  ∀ (c : Codes) (s : State) (i : Instr) (e : ErrorEvent), s.Tables c →
    exec i s = .next (s.plusError e) →
    EventOk e ∧ e.line = i.line ∧
    match mnemonicShape i.mnemonic with
    | .r => e.kind ∈ [ErrorKind.arity, .invalidRegister]
    | .i => e.kind ∈ [ErrorKind.arity, .invalidRegister, .malformedNumeral, .range]
    | .j => e.kind ∈ [ErrorKind.arity, .malformedNumeral, .range]

/-- The machine agrees with the table's encoder: an instruction emits a word exactly where it is well formed,
and then the encoder's word; otherwise it takes one error and emits nothing (30_encoding.md section 5,
40_common_and_operands.md section 2, 60_exceptions.md section 1). What is a numeral is decision D10 (log entry
12); the code and the fields of the event are D13 and D14 (log entries 15 and 16). -/
def Obligations.InstructionEmitsExactlyTheEncodersWord : Prop :=
  ∀ (c : Codes) (s : State) (i : Instr), s.Tables c →
    (i.WellFormed = true → ∃ w, encode c i = some w ∧ exec i s = .next (s.plusWord w)) ∧
    (i.WellFormed = false →
      encode c i = none ∧ ∃ e, exec i s = .next (s.plusError e) ∧ e.line = i.line ∧ EventOk e)

/- ## Fields and numerals -/

/-- The immediate field (R56): v itself in nine bits, or 512 + v for a negative v; the sign bit is bit 8;
read back by sign extension; a value outside the range is never packed; and the same for all seven I-type
mnemonics, of whose word the low nine bits are the field. -/
def Obligations.ImmediateFieldIsTwosComplement : Prop :=
  (∀ v : Int, -256 ≤ v → v ≤ 255 →
    ((immField v).toNat : Int) = (if 0 ≤ v then v else 512 + v) ∧
    (immField v).toInt = v ∧ (immField v).msb = decide (v < 0)) ∧
  (∀ (t : Tok) (v : Int), parseNumeral t = some v → (v < -256 ∨ 255 < v) →
    ∃ bound, imm9 t = .error (.range t bound)) ∧
  ∀ (c : Codes) (s : State) (line : Str) (t1 t2 t3 : Tok) (v : Int), s.Tables c →
    (lookupReg regTabRows t1).isSome → (lookupReg regTabRows t2).isSome →
    parseNumeral t3 = some v → -256 ≤ v → v ≤ 255 →
    ∀ i ∈ [Instr.addi line [t1, t2, t3], .andi line [t1, t2, t3], .lw line [t1, t2, t3],
        .lea line [t1, t2, t3], .sw line [t1, t2, t3], .pcm line [t1, t2, t3],
        .beq line [t1, t2, t3]],
      ∃ w : Word, exec i s = .next (s.plusWord w) ∧ w.extractLsb' 0 9 = immField v

/-- The round-trip laws of R91: (a) register names, (b) immediates, (c) jump targets, (d) the text of a word,
(e) numerals of one value encode alike. -/
def Obligations.RoundTripLawsHold : Prop :=
  (∀ i : BitVec 3, reg regTabRows [0x72#8, BitVec.ofNat 8 (0x30 + i.toNat)] = .ok i) ∧
  (∀ v : Int, -256 ≤ v → v ≤ 255 → ∃ f, imm9 (decNumeral v) = .ok f ∧ f.toInt = v) ∧
  (∀ v : Int, 0 ≤ v → v ≤ 4095 → ∃ f, tgt12 (decNumeral v) = .ok f ∧ (f.toNat : Int) = v) ∧
  (∀ w : Word, (wordText w).length = 19 ∧ ∀ ch ∈ wordText w, ch = 0x30#8 ∨ ch = 0x31#8) ∧
  ∀ (t t' : Tok) (v : Int), parseNumeral t = some v → parseNumeral t' = some v →
    (-256 ≤ v → v ≤ 255 → imm9 t = imm9 t') ∧ (0 ≤ v → v ≤ 4095 → tgt12 t = tgt12 t')

/-- The numerals and their values, all of them: `0b` and binary digits, decimal digits, a minus sign and
decimal digits, each with the positional sum as its value; every other text is none (sections 4 of
40_common_and_operands.md; the grammar is decision D10, exact values D11, log entries 12 and 13). -/
def Obligations.NumeralsAndTheirValues : Prop :=
  ∀ (t : Tok) (v : Int), parseNumeral t = some v ↔
    (∃ ds : Str, ds ≠ [] ∧ (∀ d ∈ ds, d = 0x30#8 ∨ d = 0x31#8) ∧
      t = 0x30#8 :: 0x62#8 :: ds ∧ v = positionalSum 2 ds) ∨
    (∃ ds : Str, ds ≠ [] ∧ (∀ d ∈ ds, 0x30#8 ≤ d ∧ d ≤ 0x39#8) ∧ t = ds ∧ v = positionalSum 10 ds) ∨
    (∃ ds : Str, ds ≠ [] ∧ (∀ d ∈ ds, 0x30#8 ≤ d ∧ d ≤ 0x39#8) ∧
      t = 0x2D#8 :: ds ∧ v = -(positionalSum 10 ds : Int))

/-- The text of a word (20_memory.md section 2; decisions D3, D25, log entry 25): a bijection between the
words and the strings of nineteen characters 0 and 1, the leftmost character bit 18. -/
def Obligations.WordTextIsABijection : Prop :=
  (∀ w w' : Word, wordText w = wordText w' → w = w') ∧
  (∀ t : Str, t.length = 19 → (∀ ch ∈ t, ch = 0x30#8 ∨ ch = 0x31#8) → ∃ w, wordText w = t) ∧
  ∀ (w : Word) (i : Nat), i < 19 →
    (wordText w)[i]? = some (if w.getLsbD (18 - i) then 0x31#8 else 0x30#8)

/- ## The tokenizer -/

/-- The tokenizer on every layout of a line (30_encoding.md section 6; whitespace D5, comma D6, comment token
D7: log entries 8, 9, 10): tokens separated by whitespace, one trailing comma dropped from each, so that a
lone comma leaves the empty token and a second comma stays; whitespace at both ends of no matter; only the
first token lower-cased; a token that ends with `#` ends the line. -/
def Obligations.TokenizerReadsEveryLayout : Prop :=
  (∀ (ws l : Str), ws.all isWs = true → tokenize (ws ++ l) = tokenize l ∧ tokenize (l ++ ws) = tokenize l) ∧
  ∀ (p : Piece) (ps : List Piece), (∀ q ∈ p :: ps, q.ok = true) → p.tok.head? ≠ some 0x3B#8 →
    tokenize ((p :: ps).flatMap Piece.text) = lower p.tok :: ps.map Piece.tok ∧
    ∀ (h : Str) (comma : Bool) (rest : Str), h.all (fun ch => !isWs ch) = true →
      startsBlank rest = true →
      tokenize ((p :: ps).flatMap Piece.text ++ h ++ [0x23#8] ++ (if comma then [0x2C#8] else [])
        ++ rest) = lower p.tok :: ps.map Piece.tok

/-- Blank and comment lines have no tokens: whitespace alone, whitespace before a first character `;`, and
whitespace before a first token that ends with `#`, perhaps with a comma after it (30_encoding.md section 6;
whitespace D5, comment token D7, log entries 8 and 10). -/
def Obligations.BlankAndCommentLinesHaveNoTokens : Prop :=
  ∀ ws : Str, ws.all isWs = true →
    tokenize ws = [] ∧ (∀ l : Str, tokenize (ws ++ 0x3B#8 :: l) = []) ∧
    ∀ (h : Str) (comma : Bool) (rest : Str), h.all (fun ch => !isWs ch) = true →
      startsBlank rest = true →
      tokenize (ws ++ h ++ [0x23#8] ++ (if comma then [0x2C#8] else []) ++ rest) = []

/- ## Decoding and encoding -/

/-- Words written out bit by bit, under REF where an open code is involved (95_test_vectors.md sections V,
RV, IV, JV, D; REF is decision D9, evidence of nothing): what they decode to, and what is refused. -/
def Obligations.WrittenOutWordsDecode : Prop :=
  decode Codes.ref 0b0000010011001000000#19
    = some (.add (str "add r1, r2, r3") [str "r1", str "r2", str "r3"]) ∧
  decode Codes.ref 0b0000000100111000001#19
    = some (.sub (str "sub r7, r0, r4") [str "r7", str "r0", str "r4"]) ∧
  decode Codes.ref 0b0001001100000000101#19
    = some (.addi (str "addi r4, r1, 5") [str "r4", str "r1", str "5"]) ∧
  decode Codes.ref 0b0111010001111111101#19
    = some (.beq (str "beq r1, r2, -3") [str "r1", str "r2", str "-3"]) ∧
  decode Codes.ref 0b1111000000000001010#19 = some (.jump (str "jump 10") [str "10"]) ∧
  decode Codes.ref 0b0000010011001001000#19 = none ∧
  decode Codes.ref 0b1111001000000001010#19 = none ∧
  decode Codes.ref 0b1000000000000000000#19 = none

/-- Decode after encode, for every mnemonic and every operand at every value its field admits, in the
canonical spelling: the instruction itself (30_encoding.md sections 2 to 5; a decoder is decision D22, the
separation of the codes decision D8: log entries 3 and 22). -/
def Obligations.DecodeOfEncodeIsTheInstruction : Prop :=
  ∀ (c : Codes) (m : Mnemonic) (f : Fields), c.Separate → fieldsShape f = mnemonicShape m →
    (spell m f).WellFormed = true ∧
    ∃ w, encode c (spell m f) = some w ∧ decode c w = some (spell m f)

/-- Decode after encode, for every well-formed instruction however its line is spelled: its canonical
spelling, which encodes to the same word (log entries 3, 22 and 29). -/
def Obligations.DecodeOfEncodeIsTheCanonicalSpelling : Prop :=
  ∀ (c : Codes) (i : Instr), c.Separate → i.WellFormed = true →
    ∃ w, encode c i = some w ∧ decode c w = some (canonical i) ∧
      encode c (canonical i) = some w ∧ (canonical i).mnemonic = i.mnemonic

/-- Encode after decode, for every record of codes and every word that decodes: the word itself, from a
well-formed instruction in its canonical spelling (log entry 22). -/
def Obligations.EncodeOfDecodeIsTheWord : Prop :=
  ∀ (c : Codes) (w : Word) (i : Instr), decode c w = some i →
    i.WellFormed = true ∧ canonical i = i ∧ encode c i = some w

/-- The words a decoder of the opcode table accepts are exactly those of the encoder's image; every other
19-bit value is refused (30_encoding.md section 5; decisions D8, D22, log entries 3 and 22). -/
def Obligations.DecoderAcceptsExactlyTheImage : Prop :=
  ∀ (c : Codes) (w : Word), c.Separate → ((∃ i, decode c w = some i) ↔ InImage c w)

/-- The image of the encoder (30_encoding.md section 5, the spec's derivation): the words some line encodes to
are exactly those of the three forms, whatever the codes. -/
def Obligations.LinesEncodeExactlyTheImage : Prop :=
  ∀ (c : Codes) (w : Word),
    (∃ line, lineResult regTabRows (opTabRows c) line = .word w) ↔ InImage c w

/- ## The step -/

/-- A step runs the instruction it reads: when the next input is a line whose first token is a mnemonic, after
a RESET, not halted and within the bounds, the step is exec of that instruction on the state with the input
taken (40_common_and_operands.md section 1; the bounds are D18, log entry 4). -/
def Obligations.StepRunsTheInstructionItReads : Prop :=
  ∀ (s : State) (line : Str) (rest : List Input) (t : Tok) (args : List Tok) (m : Mnemonic) (e : OpEntry),
    s.pending = .line line :: rest → s.started = true → s.halt = false → s.fits line = true →
    tokenize line = t :: args → lookupOp s.optab (lower t) = some (m, e) →
    step s = exec (m.instr line args) { s with pending := rest }

/-- A word of the opcode table that decodes is presented as its canonical line and run by the very next step
(the model's host interface, log entry 2). -/
def Obligations.PresentedTableWordRunsNext : Prop :=
  ∀ (s : State) (nbits w : Nat) (i : Instr), s.Tables Config.codes → s.Unbounded →
    decodeTableWord nbits w = some i →
    step (s.withFetchWord nbits w) = exec i { s with halt := false, started := true }

/-- The line step (R80): SKIP changes nothing, WORD appends the word to OUT, ERROR the event to ERR, as the
pure line_result says; while HALT is 1 the line is ignored. line_result is SKIP for a line of no tokens, else
what encode answers on its tokens: a word, or an error with the raw line. No bound is set, as R5 has it by
default. -/
def Obligations.LineStepFollowsLineResult : Prop :=
  ∀ (c : Codes) (s : State) (line : Str) (rest : List Input),
    s.Tables c → s.Unbounded → s.started = true → s.pending = .line line :: rest →
    step s = .next (s.afterResult rest
      (if s.halt then .ignored else lineResult regTabRows (opTabRows c) line)) ∧
    ((tokenize line = [] ∧ lineResult regTabRows (opTabRows c) line = .skip) ∨
      (tokenize line ≠ [] ∧
        ((∃ w, encodeTokens regTabRows (opTabRows c) (tokenize line) = .ok (some w) ∧
            lineResult regTabRows (opTabRows c) line = .word w) ∨
          ∃ e, encodeTokens regTabRows (opTabRows c) (tokenize line) = .error e ∧
            lineResult regTabRows (opTabRows c) line = .error (eventOf line e))))

/-- No line step depends on an earlier one (R20): two states with the same tables and HALT = 0, whatever
their histories, give one and the same result on one line, appended to each one's own OUT or ERR. -/
def Obligations.LineResultIgnoresTheHistory : Prop :=
  ∀ (s1 s2 : State) (line : Str) (rest1 rest2 : List Input),
    s1.regtab = s2.regtab → s1.optab = s2.optab → s1.Unbounded → s2.Unbounded →
    s1.started = true → s2.started = true → s1.halt = false → s2.halt = false →
    s1.pending = .line line :: rest1 → s2.pending = .line line :: rest2 →
    ∃ r : Result, step s1 = .next (s1.afterResult rest1 r) ∧ step s2 = .next (s2.afterResult rest2 r)

/-- One line step makes at most one append in total (R38): a word to OUT only, an event to ERR only, or
neither; every other field is as it was but for the input taken and the result recorded. -/
def Obligations.LineStepAppendsAtMostOnce : Prop :=
  ∀ (s t : State) (line : Str) (rest : List Input),
    s.pending = .line line :: rest → step s = .next t →
    ∃ r : Result, t = s.afterResult rest r ∧
      match r with
      | .word w => t.out = s.out ++ [w] ∧ t.err = s.err
      | .error e => t.out = s.out ∧ t.err = s.err ++ [e]
      | .skip => t.out = s.out ∧ t.err = s.err
      | .ignored => t.out = s.out ∧ t.err = s.err
      | .fatal => False

/-- OUT and ERR are append-only (10_state.md section 5): a step on any input but RESET keeps every word and
every event where it stands. -/
def Obligations.OutputsAreAppendOnly : Prop :=
  ∀ s t : State, step s = .next t → (∀ rest, s.pending ≠ .reset :: rest) →
    s.out <+: t.out ∧ s.err <+: t.err

/-- A skipped line leaves no trace (R149): the result is SKIP, of code 0, and neither OUT nor ERR changes. -/
def Obligations.SkippedLineLeavesNoTrace : Prop :=
  ∀ (s : State) (line : Str) (rest : List Input),
    s.pending = .line line :: rest → s.started = true → s.halt = false → s.fits line = true →
    tokenize line = [] →
    step s = .next { s with pending := rest, results := s.results ++ [.skip] } ∧
    resultCode .skip = some 0#3

/-- UnknownInstructionError: a line whose first token is no mnemonic, whatever its other tokens
(60_exceptions.md section 1; record D13, D14; the token is the one the tokenizer left, lower-cased). -/
def Obligations.UnknownMnemonicIsReported : Prop :=
  ∀ (c : Codes) (s : State) (line : Str) (rest : List Input) (t : Tok) (args : List Tok),
    s.Tables c → s.Unbounded → s.started = true → s.halt = false → s.pending = .line line :: rest →
    tokenize line = t :: args → (∀ m, t ≠ mnemonicName m) →
    step s = .next ({ s with pending := rest }.plusError (unknownEvent line t))

/-- While HALT is 1 every line is ignored and changes nothing, only RESET clears HALT, and a run that ended
so has not completed normally (60_exceptions.md section 6; decision D16, log entry 18). -/
def Obligations.HaltedBlockIgnoresLinesUntilReset : Prop :=
  (∀ (s : State) (line : Str) (rest : List Input),
    s.halt = true → s.started = true → s.pending = .line line :: rest →
    step s = .next { s with pending := rest, results := s.results ++ [.ignored] }) ∧
  (∀ s t : State, s.halt = true → step s = .next t → t.halt = false →
    ∃ rest, s.pending = .reset :: rest) ∧
  ∀ s : State, s.halt = true → ¬ s.completed

/-- SRC_FAIL: FATAL and HALT set once, IGNORED after it; OUT, ERR and LEAD unchanged (60_exceptions.md
section 6; decision D16, log entry 18). -/
def Obligations.SourceFailureHaltsOnce : Prop :=
  ∀ (s : State) (rest : List Input), s.started = true → s.pending = .srcFail :: rest →
    (s.halt = false →
      step s = .next { s with pending := rest, halt := true, results := s.results ++ [.fatal] }) ∧
    (s.halt = true →
      step s = .next { s with pending := rest, results := s.results ++ [.ignored] })

/-- Before the first RESET a line or a source failure has no step: the machine is stuck (10_state.md section
9; decision D23, treatment U10, log entry 5). -/
def Obligations.InputBeforeTheFirstResetIsStuck : Prop :=
  ∀ (s : State) (i : Input) (rest : List Input), s.started = false → s.pending = i :: rest →
    i ≠ .reset → step s = .fault .inputBeforeReset

/-- A line beyond a bound that a realisation sets is refused and never encoded: beyond LINE_MAX, or within
LINE_MAX, set or not, and beyond TOK_MAX (00_scope.md section 4; decision D18, treatment U15, log entry 4). -/
def Obligations.LineBeyondABoundIsRefused : Prop :=
  ∀ (s : State) (line : Str) (rest : List Input), s.started = true → s.halt = false →
    s.pending = .line line :: rest →
    (∀ n, s.lineMax = some n → n < line.length → step s = .refused .lineTooLong) ∧
    (∀ n, withinBound s.lineMax line.length = true → s.tokMax = some n →
      n < (tokenize line).length → step s = .refused .tooManyTokens)

/- ## Invariants and runs -/

/-- The invariant holds of the state after RESET. -/
def Obligations.ResetStateSatisfiesTheInvariant : Prop := Inv Config.codes State.reset

/-- Every step keeps the invariant, from every state that satisfies it: the tables in place, the zero word
and after it the words of the results, the events of the results, HALT exactly after a FATAL, every word of
the image, every event of its form. -/
def Obligations.EveryStepKeepsTheInvariant : Prop :=
  ∀ (c : Codes) (s t : State), Inv c s → step s = .next t → Inv c t

/-- Along every run from a state of the invariant, however long and whatever the host presents, index 0 of
OUT holds the zero word and the invariant holds (20_memory.md section 5). -/
def Obligations.EveryRunKeepsTheZeroWordFirst : Prop :=
  ∀ (c : Codes) (k : Nat) (s t : State), Inv c s → runSteps k s = .next t →
    t.out[0]? = some 0#19 ∧ Inv c t

/-- No stop after a RESET: from every state of the invariant with no bound set, the step goes on, whatever is
presented (70_reset_and_hazards.md section 5: every step ends; log entry 4 for the bounds). -/
def Obligations.NoStepStopsAfterReset : Prop :=
  ∀ (c : Codes) (s : State), Inv c s → s.Unbounded → ∃ t, step s = .next t

/-- The end of a run (70_reset_and_hazards.md section 3): one RESET, then lines, perhaps cut short by a
SRC_FAIL and lines after it. OUT is the zero word and the words of the lines in order, ERR the events of the
lines in order, LEAD is 1, HALT is 1 exactly if cut short, words, events and skips count up to the lines
before the cut, and the run has completed exactly if it was not cut short. The unconditional zero word, the
RESET and the cut are decisions D15, D23 and D16 (treatment U11; log entries 17, 23, 18); counting steps by
the inputs presented and skips by the results kept is the model's choice (log entries 1 and 6). -/
def Obligations.RunEndsWithTheWordsAndErrorsOfItsLines : Prop :=
  ∀ (c : Codes) (s : State) (ls : List Str) (cut : Option (List Str)),
    s.Tables c → s.Unbounded →
    s.pending = .reset :: ls.map Input.line ++
      (match cut with
        | none => []
        | some ms => .srcFail :: ms.map Input.line) →
    ∃ t : State, runSteps s.pending.length s = .next t ∧ t.pending = [] ∧
      t.out = 0#19 :: wordsOf (ls.map (lineResult regTabRows (opTabRows c))) ∧
      t.err = errorsOf (ls.map (lineResult regTabRows (opTabRows c))) ∧
      t.lead = true ∧ t.halt = cut.isSome ∧
      t.out.length - 1 + t.err.length + t.results.count .skip = ls.length ∧
      (t.completed ↔ cut = none)

/-- The seven I-type opcodes are pairwise distinct, whatever the open codes, and no run of steps, from any
state with the tables in place, changes them: two mnemonics with one opcode, one looked up before the run and
one after it, are the same (00_scope.md section 4, constraint (b); 70_reset_and_hazards.md section 2 (b)). -/
def Obligations.ITypeOpcodesAreDistinctAlongEveryRun : Prop :=
  ∀ (c : Codes) (k : Nat) (s t : State), s.Tables c → runSteps k s = .next t →
    t.optab = s.optab ∧
    ∀ (n1 n2 : Str) (m1 m2 : Mnemonic) (opc : BitVec 4),
      lookupOp s.optab n1 = some (m1, .i opc) → lookupOp t.optab n2 = some (m2, .i opc) → m1 = m2
end

