-- ==== Sys2Proof/Laws/Tables.lean ====
section
/-! SUPPORT. The contents of the two tables as the look-ups see them. -/

/-- Every record of codes meets constraint (b) of R6. -/
theorem Sys2Proof.Codes.iOpcodes_distinct (c : Sys2Proof.Codes) : c.Distinct := c.distinct

namespace Sys2Proof.Machine

/-- Each mnemonic's key finds its own row, whatever the code values. -/
@[simp] theorem lookupOp_name (c : Codes) (m : Mnemonic) :
    lookupOp (opTabRows c) (mnemonicName m) = some (m, opEntry c m) := by
  cases m <;> rfl

/-- A row that a string finds is the row of the mnemonic that the string spells. -/
theorem lookupOp_some {c : Codes} {t : Str} {m : Mnemonic} {e : OpEntry}
    (h : lookupOp (opTabRows c) t = some (m, e)) : t = mnemonicName m ∧ e = opEntry c m := by
  have hmem := List.mem_of_find?_eq_some h
  have hkey := List.find?_some h
  simp only [opTabRows, List.mem_map] at hmem
  obtain ⟨m', -, hm'⟩ := hmem
  obtain ⟨rfl, rfl⟩ := Prod.mk.inj hm'
  exact ⟨(beq_iff_eq.mp hkey).symm, rfl⟩

/-- Each mnemonic's cell is the cell of R13. -/
@[simp] theorem entryOf_rows (c : Codes) (m : Mnemonic) :
    entryOf (opTabRows c) m = some (opEntry c m) := by
  cases m <;> rfl

/-- The class column of R13. -/
@[simp] theorem entryShape_opEntry (c : Codes) (m : Mnemonic) :
    entryShape (opEntry c m) = mnemonicShape m := by
  cases m <;> rfl

/-- The canonical name of a register finds its index. -/
@[simp] theorem lookupReg_regName (r : BitVec 3) : lookupReg regTabRows (regName r) = some r := by
  revert r; decide

end Sys2Proof.Machine
end

