-- ==== Sys2Proof/Laws/Operands.lean ====
section
/-! SUPPORT. What the operand sub-encoders and the three shapes' encoders can answer. -/

namespace Sys2Proof.Machine

theorem reg_eq_ok {rt : RegTab} {t : Tok} {r : BitVec 3} :
    reg rt t = .ok r ↔ lookupReg rt t = some r := by
  unfold reg
  cases lookupReg rt t <;> simp

theorem reg_of_some {rt : RegTab} {t : Tok} {r : BitVec 3} (h : lookupReg rt t = some r) :
    reg rt t = .ok r := reg_eq_ok.mpr h

theorem reg_of_none {rt : RegTab} {t : Tok} (h : lookupReg rt t = none) :
    reg rt t = .error (.invalidRegister t) := by
  simp [reg, h]

/-- The three answers of `imm9` on a numeral (R88). -/
theorem imm9_of_some {t : Tok} {v : Int} (h : parseNumeral t = some v) :
    imm9 t = if v > immMax then .error (.range t immMax)
      else if v < immMin then .error (.range t immMin) else .ok (immField v) := by
  simp [imm9, numeral, h]

theorem imm9_of_none {t : Tok} (h : parseNumeral t = none) :
    imm9 t = .error (.malformedNumeral t) := by
  simp [imm9, numeral, h]

/-- The three answers of `tgt12` on a numeral (R89). -/
theorem tgt12_of_some {t : Tok} {v : Int} (h : parseNumeral t = some v) :
    tgt12 t = if v < tgtMin then .error (.range t tgtMin)
      else if v > tgtMax then .error (.range t tgtMax) else .ok (tgtField v) := by
  simp [tgt12, numeral, h]

theorem tgt12_of_none {t : Tok} (h : parseNumeral t = none) :
    tgt12 t = .error (.malformedNumeral t) := by
  simp [tgt12, numeral, h]

/-- `imm9` encodes exactly the numerals in range. -/
theorem imm9_eq_ok {t : Tok} {b : BitVec 9} :
    imm9 t = .ok b ↔ ∃ v, numeralIn .i t = some v ∧ immField v = b := by
  unfold numeralIn
  cases h : parseNumeral t with
  | none => simp [imm9_of_none h]
  | some v =>
    rw [imm9_of_some h]
    simp only [numRange]
    by_cases h1 : v > immMax
    · simp [h1, show ¬ v ≤ immMax by omega]
    · by_cases h2 : v < immMin
      · simp [h1, h2, show ¬ immMin ≤ v by omega]
      · simp [h1, h2, show immMin ≤ v by omega, show v ≤ immMax by omega]

/-- `tgt12` encodes exactly the numerals in range. -/
theorem tgt12_eq_ok {t : Tok} {b : BitVec 12} :
    tgt12 t = .ok b ↔ ∃ v, numeralIn .j t = some v ∧ tgtField v = b := by
  unfold numeralIn
  cases h : parseNumeral t with
  | none => simp [tgt12_of_none h]
  | some v =>
    rw [tgt12_of_some h]
    simp only [numRange]
    by_cases h1 : v < tgtMin
    · simp [h1, show ¬ tgtMin ≤ v by omega]
    · by_cases h2 : v > tgtMax
      · simp [h1, h2, show ¬ v ≤ tgtMax by omega]
      · simp [h1, h2, show tgtMin ≤ v by omega, show v ≤ tgtMax by omega]

/-- `encode_R` on three operands: token 2, token 3, token 1, then the word (R100). -/
theorem encodeR_three (rt : RegTab) (fn : BitVec 3) (t1 t2 t3 : Tok) :
    encodeR rt fn [t1, t2, t3]
      = match lookupReg rt t2, lookupReg rt t3, lookupReg rt t1 with
        | some sa, some sb, some rd => .ok (packR fn sa sb rd)
        | none, _, _ => .error (.invalidRegister t2)
        | some _, none, _ => .error (.invalidRegister t3)
        | some _, some _, none => .error (.invalidRegister t1) := by
  cases h2 : lookupReg rt t2 <;> cases h3 : lookupReg rt t3 <;> cases h1 : lookupReg rt t1 <;>
    simp [encodeR, threeOperands, reg, h1, h2, h3, bind, Except.bind, pure, Except.pure]

/-- `encode_I` on three operands: token 2, token 1, the immediate, then the word (R110). -/
theorem encodeI_three (rt : RegTab) (opc : BitVec 4) (t1 t2 t3 : Tok) :
    encodeI rt opc [t1, t2, t3]
      = match lookupReg rt t2, lookupReg rt t1 with
        | some fb, some fa => (imm9 t3).map (packI opc fb fa)
        | none, _ => .error (.invalidRegister t2)
        | some _, none => .error (.invalidRegister t1) := by
  cases h2 : lookupReg rt t2 <;> cases h1 : lookupReg rt t1 <;> cases h3 : imm9 t3 <;>
    simp [encodeI, threeOperands, reg, h1, h2, h3, bind, Except.bind, pure, Except.pure, Except.map]

/-- `encode_J` on one operand (R120). -/
theorem encodeJ_one (t1 : Tok) : encodeJ [t1] = (tgt12 t1).map packJ := by
  cases h : tgt12 t1 <;>
    simp [encodeJ, oneOperand, h, bind, Except.bind, pure, Except.pure, Except.map]

/-- Any other number of operands than three is an ArityError (R83). -/
theorem threeOperands_bad {args : List Tok} (h : args.length ≠ 3) :
    threeOperands args = .error (.arity 4 (args.length + 1)) := by
  unfold threeOperands
  split
  · simp at h
  · rfl

/-- Any other number of operands than one is an ArityError (R83). -/
theorem oneOperand_bad {args : List Tok} (h : args.length ≠ 1) :
    oneOperand args = .error (.arity 2 (args.length + 1)) := by
  unfold oneOperand
  split
  · simp at h
  · rfl

/-- A wrong token count is an ArityError whatever the row and the operands (R83). -/
theorem encodeRow_bad {rt : RegTab} {e : OpEntry} {args : List Tok}
    (h : args.length ≠ operandCount (entryShape e)) :
    encodeRow rt e args
      = .error (.arity (operandCount (entryShape e) + 1) (args.length + 1)) := by
  cases e <;> simp_all [encodeRow, encodeR, encodeI, encodeJ, entryShape, operandCount,
    threeOperands_bad, oneOperand_bad, bind, Except.bind]

/-- A list of three. -/
theorem three_of_length {args : List Tok} (h : args.length = 3) : ∃ a b c, args = [a, b, c] := by
  match args, h with
  | [a, b, c], _ => exact ⟨a, b, c, rfl⟩

/-- A list of one. -/
theorem one_of_length {args : List Tok} (h : args.length = 1) : ∃ a, args = [a] := by
  match args, h with
  | [a], _ => exact ⟨a, rfl⟩

/-- A row's encoder answers a word exactly where its operands resolve, and the word is their packing. -/
theorem encodeRow_eq_ok {e : OpEntry} {args : List Tok} {w : Word} :
    encodeRow regTabRows e args = .ok w ↔
      ∃ f, resolve (entryShape e) args = some f ∧ packFields e f = some w := by
  by_cases hl : args.length = operandCount (entryShape e)
  · cases e with
    | r fn =>
      obtain ⟨t1, t2, t3, rfl⟩ := three_of_length hl
      simp only [encodeRow, encodeR_three, entryShape, resolve]
      cases lookupReg regTabRows t1 <;> cases lookupReg regTabRows t2 <;>
        cases lookupReg regTabRows t3 <;> simp [packFields]
    | i opc =>
      obtain ⟨t1, t2, t3, rfl⟩ := three_of_length hl
      have h3 : (∃ a, imm9 t3 = .ok a) ↔ ∃ v, numeralIn .i t3 = some v := by
        constructor
        · rintro ⟨a, ha⟩
          obtain ⟨v, hv, -⟩ := imm9_eq_ok.mp ha
          exact ⟨v, hv⟩
        · rintro ⟨v, hv⟩
          exact ⟨_, imm9_eq_ok.mpr ⟨v, hv, rfl⟩⟩
      simp only [encodeRow, encodeI_three, entryShape, resolve]
      cases hn : numeralIn .i t3 with
      | none =>
        have hi : ∀ a, imm9 t3 ≠ .ok a := by
          intro a ha
          obtain ⟨v, hv⟩ := h3.mp ⟨a, ha⟩
          simp [hn] at hv
        cases lookupReg regTabRows t1 <;> cases lookupReg regTabRows t2 <;>
          cases hh : imm9 t3 <;> simp_all [Except.map]
      | some v =>
        have hi : imm9 t3 = .ok (immField v) := imm9_eq_ok.mpr ⟨v, hn, rfl⟩
        cases lookupReg regTabRows t1 <;> cases lookupReg regTabRows t2 <;>
          simp [hi, Except.map, packFields]
    | j =>
      obtain ⟨t1, rfl⟩ := one_of_length hl
      simp only [encodeRow, encodeJ_one, entryShape, resolve]
      cases hn : numeralIn .j t1 with
      | none =>
        have hi : ∀ a, tgt12 t1 ≠ .ok a := by
          intro a ha
          obtain ⟨v, hv, -⟩ := tgt12_eq_ok.mp ha
          simp [hn] at hv
        cases hh : tgt12 t1 <;> simp_all [Except.map]
      | some v =>
        have hi : tgt12 t1 = .ok (tgtField v) := tgt12_eq_ok.mpr ⟨v, hn, rfl⟩
        simp [hi, Except.map, packFields]
  · rw [encodeRow_bad hl]
    simp only [reduceCtorEq, false_iff, not_exists, not_and]
    intro f hf
    unfold resolve at hf
    cases e <;> simp only [entryShape] at hf hl <;> split at hf <;> simp_all [operandCount]

end Sys2Proof.Machine
end

