-- ==== Sys2Proof/Laws/State.lean ====
section
/-! SUPPORT. What each named operation leaves in each field of State: one lemma a field, true by rfl, so that
no later proof unfolds a record update. -/

namespace Sys2Proof.Machine

@[simp] theorem recordResult_regtab (r : Result) (s : State) : (recordResult r s).regtab = s.regtab := rfl
@[simp] theorem recordResult_optab (r : Result) (s : State) : (recordResult r s).optab = s.optab := rfl
@[simp] theorem recordResult_out (r : Result) (s : State) : (recordResult r s).out = s.out := rfl
@[simp] theorem recordResult_err (r : Result) (s : State) : (recordResult r s).err = s.err := rfl
@[simp] theorem recordResult_lead (r : Result) (s : State) : (recordResult r s).lead = s.lead := rfl
@[simp] theorem recordResult_halt (r : Result) (s : State) : (recordResult r s).halt = s.halt := rfl
@[simp] theorem recordResult_started (r : Result) (s : State) : (recordResult r s).started = s.started := rfl
@[simp] theorem recordResult_lineMax (r : Result) (s : State) : (recordResult r s).lineMax = s.lineMax := rfl
@[simp] theorem recordResult_tokMax (r : Result) (s : State) : (recordResult r s).tokMax = s.tokMax := rfl
@[simp] theorem recordResult_pending (r : Result) (s : State) : (recordResult r s).pending = s.pending := rfl
@[simp] theorem recordResult_results (r : Result) (s : State) : (recordResult r s).results = s.results ++ [r] := rfl

@[simp] theorem emitWord_regtab (w : Word) (s : State) : (emitWord w s).regtab = s.regtab := rfl
@[simp] theorem emitWord_optab (w : Word) (s : State) : (emitWord w s).optab = s.optab := rfl
@[simp] theorem emitWord_out (w : Word) (s : State) : (emitWord w s).out = s.out ++ [w] := rfl
@[simp] theorem emitWord_err (w : Word) (s : State) : (emitWord w s).err = s.err := rfl
@[simp] theorem emitWord_lead (w : Word) (s : State) : (emitWord w s).lead = s.lead := rfl
@[simp] theorem emitWord_halt (w : Word) (s : State) : (emitWord w s).halt = s.halt := rfl
@[simp] theorem emitWord_started (w : Word) (s : State) : (emitWord w s).started = s.started := rfl
@[simp] theorem emitWord_lineMax (w : Word) (s : State) : (emitWord w s).lineMax = s.lineMax := rfl
@[simp] theorem emitWord_tokMax (w : Word) (s : State) : (emitWord w s).tokMax = s.tokMax := rfl
@[simp] theorem emitWord_pending (w : Word) (s : State) : (emitWord w s).pending = s.pending := rfl
@[simp] theorem emitWord_results (w : Word) (s : State) : (emitWord w s).results = s.results ++ [.word w] := rfl

@[simp] theorem takeError_regtab (line : Str) (e : EncError) (s : State) : (takeError line e s).regtab = s.regtab := rfl
@[simp] theorem takeError_optab (line : Str) (e : EncError) (s : State) : (takeError line e s).optab = s.optab := rfl
@[simp] theorem takeError_out (line : Str) (e : EncError) (s : State) : (takeError line e s).out = s.out := rfl
@[simp] theorem takeError_err (line : Str) (e : EncError) (s : State) : (takeError line e s).err = s.err ++ [eventOf line e] := rfl
@[simp] theorem takeError_lead (line : Str) (e : EncError) (s : State) : (takeError line e s).lead = s.lead := rfl
@[simp] theorem takeError_halt (line : Str) (e : EncError) (s : State) : (takeError line e s).halt = s.halt := rfl
@[simp] theorem takeError_started (line : Str) (e : EncError) (s : State) : (takeError line e s).started = s.started := rfl
@[simp] theorem takeError_lineMax (line : Str) (e : EncError) (s : State) : (takeError line e s).lineMax = s.lineMax := rfl
@[simp] theorem takeError_tokMax (line : Str) (e : EncError) (s : State) : (takeError line e s).tokMax = s.tokMax := rfl
@[simp] theorem takeError_pending (line : Str) (e : EncError) (s : State) : (takeError line e s).pending = s.pending := rfl
@[simp] theorem takeError_results (line : Str) (e : EncError) (s : State) : (takeError line e s).results = s.results ++ [.error (eventOf line e)] := rfl

@[simp] theorem skipLine_regtab (s : State) : (skipLine s).regtab = s.regtab := rfl
@[simp] theorem skipLine_optab (s : State) : (skipLine s).optab = s.optab := rfl
@[simp] theorem skipLine_out (s : State) : (skipLine s).out = s.out := rfl
@[simp] theorem skipLine_err (s : State) : (skipLine s).err = s.err := rfl
@[simp] theorem skipLine_lead (s : State) : (skipLine s).lead = s.lead := rfl
@[simp] theorem skipLine_halt (s : State) : (skipLine s).halt = s.halt := rfl
@[simp] theorem skipLine_started (s : State) : (skipLine s).started = s.started := rfl
@[simp] theorem skipLine_lineMax (s : State) : (skipLine s).lineMax = s.lineMax := rfl
@[simp] theorem skipLine_tokMax (s : State) : (skipLine s).tokMax = s.tokMax := rfl
@[simp] theorem skipLine_pending (s : State) : (skipLine s).pending = s.pending := rfl
@[simp] theorem skipLine_results (s : State) : (skipLine s).results = s.results ++ [.skip] := rfl

@[simp] theorem ignoreInput_regtab (s : State) : (ignoreInput s).regtab = s.regtab := rfl
@[simp] theorem ignoreInput_optab (s : State) : (ignoreInput s).optab = s.optab := rfl
@[simp] theorem ignoreInput_out (s : State) : (ignoreInput s).out = s.out := rfl
@[simp] theorem ignoreInput_err (s : State) : (ignoreInput s).err = s.err := rfl
@[simp] theorem ignoreInput_lead (s : State) : (ignoreInput s).lead = s.lead := rfl
@[simp] theorem ignoreInput_halt (s : State) : (ignoreInput s).halt = s.halt := rfl
@[simp] theorem ignoreInput_started (s : State) : (ignoreInput s).started = s.started := rfl
@[simp] theorem ignoreInput_lineMax (s : State) : (ignoreInput s).lineMax = s.lineMax := rfl
@[simp] theorem ignoreInput_tokMax (s : State) : (ignoreInput s).tokMax = s.tokMax := rfl
@[simp] theorem ignoreInput_pending (s : State) : (ignoreInput s).pending = s.pending := rfl
@[simp] theorem ignoreInput_results (s : State) : (ignoreInput s).results = s.results ++ [.ignored] := rfl

@[simp] theorem setHalt_regtab (s : State) : (setHalt s).regtab = s.regtab := rfl
@[simp] theorem setHalt_optab (s : State) : (setHalt s).optab = s.optab := rfl
@[simp] theorem setHalt_out (s : State) : (setHalt s).out = s.out := rfl
@[simp] theorem setHalt_err (s : State) : (setHalt s).err = s.err := rfl
@[simp] theorem setHalt_lead (s : State) : (setHalt s).lead = s.lead := rfl
@[simp] theorem setHalt_halt (s : State) : (setHalt s).halt = true := rfl
@[simp] theorem setHalt_started (s : State) : (setHalt s).started = s.started := rfl
@[simp] theorem setHalt_lineMax (s : State) : (setHalt s).lineMax = s.lineMax := rfl
@[simp] theorem setHalt_tokMax (s : State) : (setHalt s).tokMax = s.tokMax := rfl
@[simp] theorem setHalt_pending (s : State) : (setHalt s).pending = s.pending := rfl
@[simp] theorem setHalt_results (s : State) : (setHalt s).results = s.results := rfl

@[simp] theorem clearFlags_regtab (s : State) : (clearFlags s).regtab = s.regtab := rfl
@[simp] theorem clearFlags_optab (s : State) : (clearFlags s).optab = s.optab := rfl
@[simp] theorem clearFlags_out (s : State) : (clearFlags s).out = s.out := rfl
@[simp] theorem clearFlags_err (s : State) : (clearFlags s).err = s.err := rfl
@[simp] theorem clearFlags_lead (s : State) : (clearFlags s).lead = false := rfl
@[simp] theorem clearFlags_halt (s : State) : (clearFlags s).halt = false := rfl
@[simp] theorem clearFlags_started (s : State) : (clearFlags s).started = s.started := rfl
@[simp] theorem clearFlags_lineMax (s : State) : (clearFlags s).lineMax = s.lineMax := rfl
@[simp] theorem clearFlags_tokMax (s : State) : (clearFlags s).tokMax = s.tokMax := rfl
@[simp] theorem clearFlags_pending (s : State) : (clearFlags s).pending = s.pending := rfl
@[simp] theorem clearFlags_results (s : State) : (clearFlags s).results = s.results := rfl

@[simp] theorem resetBlock_regtab (s : State) : (resetBlock s).regtab = s.regtab := rfl
@[simp] theorem resetBlock_optab (s : State) : (resetBlock s).optab = s.optab := rfl
@[simp] theorem resetBlock_out (s : State) : (resetBlock s).out = [zeroWord] := rfl
@[simp] theorem resetBlock_err (s : State) : (resetBlock s).err = [] := rfl
@[simp] theorem resetBlock_lead (s : State) : (resetBlock s).lead = true := rfl
@[simp] theorem resetBlock_halt (s : State) : (resetBlock s).halt = false := rfl
@[simp] theorem resetBlock_started (s : State) : (resetBlock s).started = true := rfl
@[simp] theorem resetBlock_lineMax (s : State) : (resetBlock s).lineMax = s.lineMax := rfl
@[simp] theorem resetBlock_tokMax (s : State) : (resetBlock s).tokMax = s.tokMax := rfl
@[simp] theorem resetBlock_pending (s : State) : (resetBlock s).pending = s.pending := rfl
@[simp] theorem resetBlock_results (s : State) : (resetBlock s).results = [] := rfl

@[simp] theorem returnFromError_eq (s : State) : returnFromError s = s := rfl

@[simp] theorem settle_ok (line : Str) (w : Word) (s : State) :
    settle line (.ok w) s = emitWord w s := rfl

@[simp] theorem settle_error (line : Str) (e : EncError) (s : State) :
    settle line (.error e) s = takeError line e s := rfl

end Sys2Proof.Machine
end

