-- ==== Sys2Proof/Laws/Exec.lean ====
section
/-! SUPPORT. What exec can answer, once for all instructions. -/

namespace Sys2Proof.Machine

@[simp] theorem instr_mnemonic (m : Mnemonic) (line : Str) (args : List Tok) :
    (m.instr line args).mnemonic = m := by
  cases m <;> rfl

@[simp] theorem instr_line (m : Mnemonic) (line : Str) (args : List Tok) :
    (m.instr line args).line = line := by
  cases m <;> rfl

@[simp] theorem instr_args (m : Mnemonic) (line : Str) (args : List Tok) :
    (m.instr line args).args = args := by
  cases m <;> rfl

/-- An instruction is its mnemonic, its line and its operands. -/
theorem instr_eta (i : Instr) : i.mnemonic.instr i.line i.args = i := by
  cases i <;> rfl

/-- Every instruction, in every state, goes on: its word is appended or its error is taken. -/
theorem exec_settles (i : Instr) (s : State) : ∃ r, exec i s = .next (settle i.line r s) := by
  cases i <;> exact ⟨_, rfl⟩

/-- With the tables in place, an instruction does what its row's encoder answers. -/
theorem exec_eq {c : Codes} {s : State} (h : s.optab = opTabRows c) (m : Mnemonic) (line : Str)
    (args : List Tok) :
    exec (m.instr line args) s
      = .next (settle line (encodeRow s.regtab (opEntry c m) args) s) := by
  cases m <;>
    simp only [Mnemonic.instr, exec, execAdd, execSub, execAnd, execOr, execSlt, execMvz, execAddi,
      execAndi, execLw, execLea, execSw, execPcm, execBeq, execJump, runR, runI, runJ, rowFn,
      rowOpcode, rowJump, h, entryOf_rows, opEntry, encodeRow, bind, Except.bind]

/-- The two ends of a settled line: a word appended, or an event appended; nothing else changes. -/
theorem settle_cases (line : Str) (r : Except EncError Word) (s : State) :
    (∃ w, r = .ok w ∧ settle line r s = emitWord w s) ∨
    ∃ e, r = .error e ∧ settle line r s = takeError line e s := by
  cases r with
  | ok w => exact .inl ⟨w, rfl, rfl⟩
  | error e => exact .inr ⟨e, rfl, rfl⟩

end Sys2Proof.Machine
end

