-- ==== Sys2Proof/Laws/Fields.lean ====
section
/-! SUPPORT. The value of a packed word and of a field read back, and each field of each shape. -/

namespace Sys2Proof.Machine

/-- Concatenation as arithmetic: the left string on the more significant side (R7). -/
theorem append_toNat {m n : Nat} (x : BitVec m) (y : BitVec n) :
    (x ++ y).toNat = x.toNat * 2 ^ n + y.toNat := by
  rw [BitVec.toNat_append, ← Nat.shiftLeft_add_eq_or_of_lt y.isLt, Nat.shiftLeft_eq]

/-- A slice as arithmetic. -/
theorem slice_toNat (w : Word) (lo n : Nat) :
    (w.extractLsb' lo n).toNat = w.toNat / 2 ^ lo % 2 ^ n := by
  rw [BitVec.extractLsb'_toNat, Nat.shiftRight_eq_div_pow]

theorem packR_toNat (fn sa sb rd : BitVec 3) :
    (packR fn sa sb rd).toNat
      = ((sa.toNat * 2 ^ 3 + sb.toNat) * 2 ^ 3 + rd.toNat) * 2 ^ 6 + fn.toNat := by
  unfold packR
  rw [append_toNat, append_toNat, append_toNat, append_toNat, append_toNat]
  simp only [opcR, pad, BitVec.toNat_ofNat]
  omega

theorem packI_toNat (opc : BitVec 4) (rb ra : BitVec 3) (imm : BitVec 9) :
    (packI opc rb ra imm).toNat
      = ((opc.toNat * 2 ^ 3 + rb.toNat) * 2 ^ 3 + ra.toNat) * 2 ^ 9 + imm.toNat := by
  unfold packI
  rw [append_toNat, append_toNat, append_toNat]

theorem packJ_toNat (tgt : BitVec 12) : (packJ tgt).toNat = 15 * 2 ^ 15 + tgt.toNat := by
  unfold packJ
  rw [append_toNat, append_toNat]
  rfl

@[simp] theorem fieldHi_packR (fn sa sb rd : BitVec 3) :
    fieldHi (packR fn sa sb rd) = sa := by
  apply BitVec.eq_of_toNat_eq
  rw [fieldHi, slice_toNat, packR_toNat]
  omega

@[simp] theorem fieldMid_packR (fn sa sb rd : BitVec 3) :
    fieldMid (packR fn sa sb rd) = sb := by
  apply BitVec.eq_of_toNat_eq
  rw [fieldMid, slice_toNat, packR_toNat]
  omega

@[simp] theorem fieldRd_packR (fn sa sb rd : BitVec 3) :
    fieldRd (packR fn sa sb rd) = rd := by
  apply BitVec.eq_of_toNat_eq
  rw [fieldRd, slice_toNat, packR_toNat]
  omega

@[simp] theorem fieldFn_packR (fn sa sb rd : BitVec 3) :
    fieldFn (packR fn sa sb rd) = fn := by
  apply BitVec.eq_of_toNat_eq
  rw [fieldFn, slice_toNat, packR_toNat]
  omega

@[simp] theorem fieldOpcode_packR (fn sa sb rd : BitVec 3) :
    fieldOpcode (packR fn sa sb rd) = opcR := by
  apply BitVec.eq_of_toNat_eq
  rw [fieldOpcode, slice_toNat, packR_toNat]
  have : (opcR).toNat = 0 := rfl
  omega

@[simp] theorem fieldPad_packR (fn sa sb rd : BitVec 3) :
    fieldPad (packR fn sa sb rd) = pad := by
  apply BitVec.eq_of_toNat_eq
  rw [fieldPad, slice_toNat, packR_toNat]
  have : (pad).toNat = 0 := rfl
  omega

@[simp] theorem fieldOpcode_packI (opc : BitVec 4) (rb ra : BitVec 3) (imm : BitVec 9) :
    fieldOpcode (packI opc rb ra imm) = opc := by
  apply BitVec.eq_of_toNat_eq
  rw [fieldOpcode, slice_toNat, packI_toNat]
  omega

@[simp] theorem fieldHi_packI (opc : BitVec 4) (rb ra : BitVec 3) (imm : BitVec 9) :
    fieldHi (packI opc rb ra imm) = rb := by
  apply BitVec.eq_of_toNat_eq
  rw [fieldHi, slice_toNat, packI_toNat]
  omega

@[simp] theorem fieldMid_packI (opc : BitVec 4) (rb ra : BitVec 3) (imm : BitVec 9) :
    fieldMid (packI opc rb ra imm) = ra := by
  apply BitVec.eq_of_toNat_eq
  rw [fieldMid, slice_toNat, packI_toNat]
  omega

@[simp] theorem fieldImm_packI (opc : BitVec 4) (rb ra : BitVec 3) (imm : BitVec 9) :
    fieldImm (packI opc rb ra imm) = imm := by
  apply BitVec.eq_of_toNat_eq
  rw [fieldImm, slice_toNat, packI_toNat]
  omega

@[simp] theorem fieldOpcode_packJ (tgt : BitVec 12) :
    fieldOpcode (packJ tgt) = opcJump := by
  apply BitVec.eq_of_toNat_eq
  rw [fieldOpcode, slice_toNat, packJ_toNat]
  have : (opcJump).toNat = 15 := rfl
  omega

@[simp] theorem fieldHi_packJ (tgt : BitVec 12) :
    fieldHi (packJ tgt) = pad := by
  apply BitVec.eq_of_toNat_eq
  rw [fieldHi, slice_toNat, packJ_toNat]
  have : (pad).toNat = 0 := rfl
  omega

@[simp] theorem fieldTgt_packJ (tgt : BitVec 12) :
    fieldTgt (packJ tgt) = tgt := by
  apply BitVec.eq_of_toNat_eq
  rw [fieldTgt, slice_toNat, packJ_toNat]
  omega

/-- A word with the R-type opcode and padding is packed from its fields. -/
theorem packR_fields {w : Word} (ho : fieldOpcode w = opcR) (hp : fieldPad w = pad) :
    packR (fieldFn w) (fieldHi w) (fieldMid w) (fieldRd w) = w := by
  have ho' := congrArg BitVec.toNat ho
  have hp' := congrArg BitVec.toNat hp
  apply BitVec.eq_of_toNat_eq
  rw [packR_toNat]
  simp only [fieldOpcode, fieldHi, fieldMid, fieldRd, fieldPad, fieldFn, slice_toNat, opcR, pad,
    BitVec.toNat_ofNat] at *
  omega

/-- Every word is packed from its I-type fields. -/
theorem packI_fields (w : Word) :
    packI (fieldOpcode w) (fieldHi w) (fieldMid w) (fieldImm w) = w := by
  apply BitVec.eq_of_toNat_eq
  rw [packI_toNat]
  simp only [fieldOpcode, fieldHi, fieldMid, fieldImm, slice_toNat]
  have := w.isLt
  omega

/-- A word with the jump opcode and padding is packed from its target. -/
theorem packJ_fields {w : Word} (ho : fieldOpcode w = opcJump) (hp : fieldHi w = pad) :
    packJ (fieldTgt w) = w := by
  have ho' := congrArg BitVec.toNat ho
  have hp' := congrArg BitVec.toNat hp
  apply BitVec.eq_of_toNat_eq
  rw [packJ_toNat]
  simp only [fieldOpcode, fieldHi, fieldTgt, slice_toNat, opcJump, pad, BitVec.toNat_ofNat] at *
  omega

/-- An in-range immediate is read back from its field by sign extension (R56). -/
theorem immField_toInt {v : Int} (h1 : -256 ≤ v) (h2 : v ≤ 255) : (immField v).toInt = v := by
  rw [immField, BitVec.toInt_eq_toNat_cond, BitVec.toNat_ofNat]
  omega

/-- An in-range target is read back from its field (R57). -/
theorem tgtField_toNat {v : Int} (h1 : 0 ≤ v) (h2 : v ≤ 4095) : ((tgtField v).toNat : Int) = v := by
  rw [tgtField, BitVec.toNat_ofNat]
  omega

/-- Every 9-bit field is the field of the integer it denotes. -/
@[simp] theorem immField_ofField (b : BitVec 9) : immField b.toInt = b := by
  apply BitVec.eq_of_toNat_eq
  rw [immField, BitVec.toInt_eq_toNat_cond, BitVec.toNat_ofNat]
  have := b.isLt
  split <;> omega

/-- Every 12-bit field is the field of the number it denotes. -/
@[simp] theorem tgtField_ofField (b : BitVec 12) : tgtField (b.toNat : Int) = b := by
  apply BitVec.eq_of_toNat_eq
  rw [tgtField, BitVec.toNat_ofNat]
  have := b.isLt
  omega

end Sys2Proof.Machine
end

