-- ==== Sys2Proof/Laws/Numeral.lean ====
section
/-! SUPPORT. What the numeral parser answers, and that it reads back a decimal numeral. -/

namespace Sys2Proof.Machine

@[simp] theorem digitsValue_nil (b : Nat) : digitsValue b [] = 0 := rfl

/-- One more digit on the right: the value times the base, plus the digit. -/
@[simp] theorem digitsValue_snoc (b : Nat) (ds : Str) (d : Chr) :
    digitsValue b (ds ++ [d]) = b * digitsValue b ds + (d.toNat - 0x30) := by
  simp [digitsValue]

/-- What a digit string parses to, once for all. -/
theorem parseDigits_eq_some {b : Nat} {p : Chr → Bool} {ds : Str} {n : Nat} :
    parseDigits b p ds = some n ↔ ds ≠ [] ∧ ds.all p = true ∧ digitsValue b ds = n := by
  unfold parseDigits
  split
  · rename_i h
    simp [h]
  · rename_i h
    simp only [reduceCtorEq, false_iff]
    exact fun h' => h ⟨h'.1, h'.2.1⟩

theorem digitChar_toNat {d : Nat} (h : d < 10) : (digitChar d).toNat = 0x30 + d := by
  simp only [digitChar, BitVec.toNat_ofNat]
  omega

theorem isDecDigit_digitChar {d : Nat} (h : d < 10) : isDecDigit (digitChar d) = true := by
  interval_cases d <;> rfl

theorem decDigits_ne_nil (fuel n : Nat) : decDigits fuel n ≠ [] := by
  cases fuel with
  | zero => simp [decDigits]
  | succ f => unfold decDigits; split <;> simp

/-- The numeral of a number is made of decimal digits. -/
theorem decDigits_all (fuel n : Nat) : (decDigits fuel n).all isDecDigit = true := by
  induction fuel generalizing n with
  | zero => simp [decDigits, isDecDigit_digitChar (Nat.mod_lt n (by decide))]
  | succ f ih =>
    unfold decDigits
    split
    · rename_i h
      simp [isDecDigit_digitChar h]
    · rw [List.all_append, ih]
      simp [isDecDigit_digitChar (Nat.mod_lt n (by decide))]

/-- The numeral of a number has that number as its value, given enough fuel. -/
theorem digitsValue_decDigits {fuel n : Nat} (h : n ≤ fuel) : digitsValue 10 (decDigits fuel n) = n := by
  induction fuel generalizing n with
  | zero =>
    obtain rfl : n = 0 := by omega
    rfl
  | succ f ih =>
    unfold decDigits
    split
    · rename_i hn
      simp [digitsValue, digitChar_toNat hn]
    · rw [digitsValue_snoc, ih (by omega), digitChar_toNat (Nat.mod_lt n (by decide))]
      omega

/-- A string of decimal digits has no binary prefix. -/
theorem hasBinPrefix_digits {ds : Str} (h : ds.all isDecDigit = true) : hasBinPrefix ds = false := by
  match ds, h with
  | [], _ => rfl
  | [_], _ => simp [hasBinPrefix]
  | c :: d :: _, h =>
    simp only [List.all_cons, Bool.and_eq_true] at h
    have hd : d ≠ 0x62#8 := by
      rintro rfl
      exact absurd h.2.1 (by decide)
    simp [hasBinPrefix, hd]

/-- A string of decimal digits parses to its value. -/
theorem parseNumeral_digits {ds : Str} (h : ds ≠ []) (hd : ds.all isDecDigit = true) :
    parseNumeral ds = some (digitsValue 10 ds : Int) := by
  match ds, h, hd with
  | c :: cs, h, hd =>
    have hc : c ≠ 0x2D#8 := by
      rintro rfl
      simp only [List.all_cons, Bool.and_eq_true] at hd
      exact absurd hd.1 (by decide)
    rw [parseNumeral, hasBinPrefix_digits hd]
    simp [parseDecimal, hc, parseDigits_eq_some.mpr ⟨h, hd, rfl⟩]

/-- A minus sign before a string of decimal digits negates its value. -/
theorem parseNumeral_minus {ds : Str} (h : ds ≠ []) (hd : ds.all isDecDigit = true) :
    parseNumeral (0x2D#8 :: ds) = some (-(digitsValue 10 ds : Int)) := by
  have hp : hasBinPrefix (0x2D#8 :: ds) = false := by
    simp [hasBinPrefix]
  rw [parseNumeral, hp]
  simp [parseDecimal, parseDigits_eq_some.mpr ⟨h, hd, rfl⟩]

/-- The decimal numeral of an integer parses to the integer. -/
theorem parseNumeral_decNumeral (v : Int) : parseNumeral (decNumeral v) = some v := by
  unfold decNumeral
  split
  · rw [parseNumeral_minus (decDigits_ne_nil _ _) (decDigits_all _ _), digitsValue_decDigits le_rfl]
    congr 1
    omega
  · rw [parseNumeral_digits (decDigits_ne_nil _ _) (decDigits_all _ _), digitsValue_decDigits le_rfl]
    congr 1
    omega

end Sys2Proof.Machine
end

