-- ==== Sys2Proof/Laws/Tokenizer.lean ====
section
/-! SUPPORT. How the tokenizer reads runs, whitespace, commas and the comment token. -/

namespace Sys2Proof.Machine

/-- Characters of a run are collected. -/
theorem rawTokensFrom_run {t : Str} (h : t.all (fun c => !isWs c) = true) (run rest : Str) :
    rawTokensFrom run (t ++ rest) = rawTokensFrom (t.reverse ++ run) rest := by
  induction t generalizing run with
  | nil => rfl
  | cons c cs ih =>
    simp only [List.all_cons, Bool.and_eq_true, Bool.not_eq_true'] at h
    simp [rawTokensFrom, h.1, ih h.2]

/-- Whitespace between tokens yields nothing. -/
theorem rawTokensFrom_ws {ws : Str} (h : ws.all isWs = true) (rest : Str) :
    rawTokensFrom [] (ws ++ rest) = rawTokensFrom [] rest := by
  induction ws with
  | nil => rfl
  | cons c cs ih =>
    simp only [List.all_cons, Bool.and_eq_true] at h
    simp [rawTokensFrom, h.1, ih h.2]

/-- Whitespace at the end of a line yields nothing. -/
theorem rawTokensFrom_ws_end {ws : Str} (h : ws.all isWs = true) (run l : Str) :
    rawTokensFrom run (l ++ ws) = rawTokensFrom run l := by
  induction l generalizing run with
  | nil =>
    match ws, h with
    | [], _ => rfl
    | c :: cs, h =>
      simp only [List.all_cons, Bool.and_eq_true] at h
      have hcs : rawTokensFrom [] cs = [] := by
        simpa [rawTokensFrom] using rawTokensFrom_ws h.2 []
      simp [rawTokensFrom, h.1, hcs]
  | cons c cs ih =>
    simp only [List.cons_append, rawTokensFrom]
    split
    · split <;> simp [ih]
    · exact ih _

/-- One token and the whitespace after it. -/
theorem rawTokens_token {t sep : Str} (ht : t ≠ []) (h : t.all (fun c => !isWs c) = true)
    (hs : sep ≠ []) (hw : sep.all isWs = true) (rest : Str) :
    rawTokens (t ++ sep ++ rest) = t :: rawTokens rest := by
  match sep, hs, hw with
  | c :: cs, _, hw =>
    simp only [List.all_cons, Bool.and_eq_true] at hw
    have hr : t.reverse ++ [] ≠ [] := by simpa using ht
    rw [rawTokens, List.append_assoc, rawTokensFrom_run h]
    simp [rawTokensFrom, hw.1, ht, rawTokens, rawTokensFrom_ws hw.2]

/-- The last token of a line. -/
theorem rawTokens_last {t : Str} (ht : t ≠ []) (h : t.all (fun c => !isWs c) = true) :
    rawTokens t = [t] := by
  have := rawTokensFrom_run h [] []
  rw [List.append_nil] at this
  rw [rawTokens, this]
  simp [rawTokensFrom, ht]

/-- A line is whitespace, its trimmed text, and whitespace. -/
theorem trim_spec (l : Str) : ∃ suf : Str, suf.all isWs = true ∧ l.dropWhile isWs = trim l ++ suf := by
  refine ⟨((l.dropWhile isWs).reverse.takeWhile isWs).reverse, ?_, ?_⟩
  · rw [List.all_reverse]
    exact List.all_takeWhile
  · rw [trim, ← List.reverse_append, List.takeWhile_append_dropWhile, List.reverse_reverse]

/-- Trimming changes no token. -/
theorem rawTokens_trim (l : Str) : rawTokens (trim l) = rawTokens l := by
  obtain ⟨suf, hs, h⟩ := trim_spec l
  have h1 : rawTokens l = rawTokens (l.dropWhile isWs) := by
    conv_lhs => rw [← List.takeWhile_append_dropWhile (p := isWs) (l := l)]
    exact rawTokensFrom_ws List.all_takeWhile _
  rw [h1, h, rawTokens, rawTokens, rawTokensFrom_ws_end hs]

/-- The first character of the trimmed line is the first that is no whitespace. -/
theorem head?_trim (l : Str) : (trim l).head? = (l.dropWhile isWs).head? := by
  obtain ⟨suf, hs, h⟩ := trim_spec l
  by_cases ht : trim l = []
  · rw [ht, List.nil_append] at h
    rw [ht, h]
    match suf, hs, h with
    | [], _, _ => rfl
    | c :: cs, hs, h =>
      have hc : isWs c = false := by
        have := List.head?_dropWhile_not isWs l
        rw [h] at this
        simpa using this
      simp [hc] at hs
  · rw [h]
    obtain ⟨c, cs, hc⟩ := List.exists_cons_of_ne_nil ht
    simp [hc]

/-- The tokenizer, without the trimming: whether the first character that is no whitespace is `;`, and
the cleaned tokens of the whole line. -/
theorem tokenize_eq (l : Str) :
    tokenize l = if (l.dropWhile isWs).head? = some 0x3B#8 then []
      else lowerFirst (cleanTokens (rawTokens l)) := by
  unfold tokenize
  rw [← head?_trim]
  by_cases ht : trim l = []
  · have hr : rawTokens l = [] := by
      rw [← rawTokens_trim, ht]
      rfl
    simp [ht, hr, cleanTokens, lowerFirst]
  · simp [ht, rawTokens_trim]

/-- A comma at the end of a token is stripped. -/
theorem stripComma_comma (t : Tok) : stripComma (t ++ [0x2C#8]) = t := by
  simp [stripComma]

/-- A token that ends otherwise is kept. -/
theorem stripComma_keep {t : Tok} (h : t.getLast? ≠ some 0x2C#8) : stripComma t = t := by
  simp [stripComma, h]

@[simp] theorem lower_nil : lower [] = [] := rfl

/-- Lower-casing a second time changes nothing (R82). -/
theorem lower_lower (t : Str) : lower (lower t) = lower t := by
  unfold lower
  rw [List.map_map]
  congr 1
  funext c
  simp only [Function.comp]
  revert c
  decide

end Sys2Proof.Machine
end

