-- ==== Sys2Proof/Laws/Decode.lean ====
section
/-! SUPPORT. The small lemmas of the decoder, the encoder and the canonical spelling. -/

namespace Sys2Proof

open Machine

/-- The operands that resolve have the shape asked for. -/
theorem fieldsShape_of_resolve {sh : Shape} {args : List Tok} {f : Fields}
    (h : resolve sh args = some f) : fieldsShape f = sh := by
  unfold resolve at h
  split at h
  · split at h <;> simp_all [fieldsShape]
    subst h; rfl
  · split at h <;> simp_all [fieldsShape]
    subst h; rfl
  · obtain ⟨_, -, rfl⟩ := Option.map_eq_some_iff.mp h
    rfl
  · simp at h

/-- A numeral in range, from a decimal numeral. -/
theorem numeralIn_decNumeral {sh : Shape} {v : Int} (h1 : (numRange sh).1 ≤ v)
    (h2 : v ≤ (numRange sh).2) : numeralIn sh (decNumeral v) = some v := by
  simp [numeralIn, parseNumeral_decNumeral, h1, h2]

/-- Canonically spelled operands resolve to themselves. -/
theorem resolve_spellArgs (f : Fields) : resolve (fieldsShape f) (spellArgs f) = some f := by
  cases f with
  | r rd ra rb => simp [fieldsShape, spellArgs, resolve]
  | i ra rb imm =>
    have h1 := BitVec.le_toInt imm
    have h2 := BitVec.toInt_lt (x := imm)
    have hn : numeralIn .i (decNumeral imm.toInt) = some imm.toInt :=
      numeralIn_decNumeral (by simp only [numRange, immMin]; omega)
        (by simp only [numRange, immMax]; omega)
    simp [fieldsShape, spellArgs, resolve, hn]
  | j tgt =>
    have h2 := tgt.isLt
    have hn : numeralIn .j (decNumeral (tgt.toNat : Int)) = some (tgt.toNat : Int) :=
      numeralIn_decNumeral (by simp only [numRange, tgtMin]; omega)
        (by simp only [numRange, tgtMax]; omega)
    simp [fieldsShape, spellArgs, resolve, hn]

/-- The named checks of WellFormed say exactly that the operands resolve. -/
theorem wellFormed_iff_resolve (i : Instr) :
    i.WellFormed = true ↔ ∃ f, resolve (mnemonicShape i.mnemonic) i.args = some f := by
  simp only [Instr.WellFormed, Bool.and_eq_true, Instr.arityOk, beq_iff_eq, Instr.regsOk,
    Instr.numeralsOk, Instr.rangesOk, Instr.regArgs, Instr.numArgs]
  cases hs : mnemonicShape i.mnemonic with
  | r =>
    by_cases hl : i.args.length = 3
    · obtain ⟨a, b, d, he⟩ := three_of_length hl
      rw [he]
      cases h1 : lookupReg regTabRows a <;> cases h2 : lookupReg regTabRows b <;>
        cases h3 : lookupReg regTabRows d <;> simp [resolve, operandCount, h1, h2, h3]
    · simp only [operandCount, hl, false_and, false_iff, not_exists]
      intro f hf
      unfold resolve at hf
      split at hf <;> simp_all
  | i =>
    by_cases hl : i.args.length = 3
    · obtain ⟨a, b, d, he⟩ := three_of_length hl
      rw [he]
      cases h1 : lookupReg regTabRows a <;> cases h2 : lookupReg regTabRows b <;>
        cases h3 : numeralIn .i d <;> simp [resolve, operandCount, h1, h2, h3] <;>
        unfold numeralIn at h3 <;> cases hp : parseNumeral d <;> (simp_all; try omega)
    · simp only [operandCount, hl, false_and, false_iff, not_exists]
      intro f hf
      unfold resolve at hf
      split at hf <;> simp_all
  | j =>
    by_cases hl : i.args.length = 1
    · obtain ⟨a, he⟩ := one_of_length hl
      rw [he]
      cases h3 : numeralIn .j a <;> simp [resolve, operandCount, h3] <;>
        unfold numeralIn at h3 <;> cases hp : parseNumeral a <;> (simp_all; try omega)
    · simp only [operandCount, hl, false_and, false_iff, not_exists]
      intro f hf
      unfold resolve at hf
      split at hf <;> simp_all

/-- A cell packs exactly the operands of its own shape. -/
theorem packFields_isSome (e : OpEntry) (f : Fields) :
    (∃ w, packFields e f = some w) ↔ fieldsShape f = entryShape e := by
  cases e <;> cases f <;> simp [packFields, fieldsShape, entryShape]

/-- A mnemonic that a function code selects has that function code in its row. -/
theorem opEntry_of_decodeFn {c : Codes} {fn : BitVec 3} {m : Mnemonic} (h : decodeFn c fn = some m) :
    opEntry c m = .r fn := by
  unfold decodeFn at h
  repeat' split at h
  all_goals simp_all
  all_goals subst h; rfl

/-- A mnemonic that an opcode selects has that opcode in its row. -/
theorem opEntry_of_decodeOpcI {c : Codes} {opc : BitVec 4} {m : Mnemonic}
    (h : decodeOpcI c opc = some m) : opEntry c m = .i opc := by
  unfold decodeOpcI at h
  repeat' split at h
  all_goals simp_all
  all_goals subst h; rfl

/-- What the decoder reads from a word packs back into the word, whatever the code values. -/
theorem packFields_of_decodeFields {c : Codes} {w : Word} {m : Mnemonic} {f : Fields}
    (h : decodeFields c w = some (m, f)) : packFields (opEntry c m) f = some w := by
  unfold decodeFields at h
  split at h
  · rename_i ho
    split at h
    · rename_i hp
      simp only [Option.map_eq_some_iff, Prod.mk.injEq] at h
      obtain ⟨_, hm, rfl, rfl⟩ := h
      rw [opEntry_of_decodeFn hm, packFields, packR_fields ho hp]
    · simp at h
  · split at h
    · rename_i ho
      split at h
      · rename_i hp
        simp only [Option.some.injEq, Prod.mk.injEq] at h
        obtain ⟨rfl, rfl⟩ := h
        rw [opEntry, packFields, packJ_fields ho hp]
      · simp at h
    · simp only [Option.map_eq_some_iff, Prod.mk.injEq] at h
      obtain ⟨_, hm, rfl, rfl⟩ := h
      rw [opEntry_of_decodeOpcI hm, packFields, packI_fields]

/-- With separate codes a function code selects its own mnemonic. -/
theorem decodeFn_of_opEntry {c : Codes} (hc : c.Separate) {m : Mnemonic} {fn : BitVec 3}
    (h : opEntry c m = .r fn) : decodeFn c fn = some m := by
  obtain ⟨-, -, h4⟩ := hc
  simp only [Codes.openFns, List.nodup_cons, List.mem_cons, List.not_mem_nil, not_or] at h4
  cases m <;> simp only [opEntry, OpEntry.r.injEq, reduceCtorEq] at h <;> subst h <;>
    unfold decodeFn fnAdd <;> (repeat' split) <;> simp_all

/-- With separate codes an I-type opcode selects its own mnemonic and no other shape. -/
theorem decodeOpcI_of_opEntry {c : Codes} (hc : c.Separate) {m : Mnemonic} {opc : BitVec 4}
    (h : opEntry c m = .i opc) : decodeOpcI c opc = some m ∧ opc ≠ opcR ∧ opc ≠ opcJump := by
  obtain ⟨h2, h3, -⟩ := hc
  have h1 := c.iOpcodes_distinct
  have hmem : opc ∈ c.iOpcodes := by
    cases m <;> simp only [opEntry, OpEntry.i.injEq, reduceCtorEq] at h <;> subst h <;>
      simp [Codes.iOpcodes]
  refine ⟨?_, ne_of_mem_of_not_mem hmem h2, ne_of_mem_of_not_mem hmem h3⟩
  clear hmem h2 h3
  simp only [Codes.Distinct, Codes.iOpcodes, List.nodup_cons, List.mem_cons, List.not_mem_nil,
    not_or] at h1
  cases m <;> simp only [opEntry, OpEntry.i.injEq, reduceCtorEq] at h <;> subst h <;>
    unfold decodeOpcI <;> (repeat' split) <;> simp_all

/-- With separate codes the decoder reads back every packed word. -/
theorem decodeFields_of_packFields {c : Codes} (hc : c.Separate) {w : Word} {m : Mnemonic} {f : Fields}
    (h : packFields (opEntry c m) f = some w) : decodeFields c w = some (m, f) := by
  cases he : opEntry c m with
  | r fn =>
    cases f <;> simp only [he, packFields, Option.some.injEq, reduceCtorEq] at h
    subst h
    simp [decodeFields, decodeFn_of_opEntry hc he]
  | i opc =>
    cases f <;> simp only [he, packFields, Option.some.injEq, reduceCtorEq] at h
    subst h
    obtain ⟨h1, h2, h3⟩ := decodeOpcI_of_opEntry hc he
    simp [decodeFields, h1, h2, h3]
  | j =>
    cases f <;> simp only [he, packFields, Option.some.injEq, reduceCtorEq] at h
    subst h
    have hm : m = .jump := by cases m <;> simp [opEntry] at he ⊢
    subst hm
    simp [decodeFields, show opcJump ≠ opcR by decide]

/-- The tokens of a canonical spelling: no whitespace, not empty, no comma and no `#` at the end. -/
def plainToken (t : Tok) : Bool :=
  t ≠ [] && t.all (fun c => !isWs c) && t.getLast? ≠ some 0x2C#8 && t.getLast? ≠ some 0x23#8

theorem plainToken_regName (r : BitVec 3) : plainToken (regName r) = true := by
  revert r; decide

theorem plainToken_name (m : Mnemonic) : plainToken (mnemonicName m) = true := by
  cases m <;> decide

/-- A string whose characters are digits or a minus sign is a plain token. -/
theorem plainToken_of_all {t : Tok} (h0 : t ≠ [])
    (h : ∀ c ∈ t, isDecDigit c = true ∨ c = 0x2D#8) : plainToken t = true := by
  have key : ∀ c : Chr, isDecDigit c = true ∨ c = 0x2D#8 →
      isWs c = false ∧ c ≠ 0x2C#8 ∧ c ≠ 0x23#8 := by decide
  have hl := List.getLast_mem h0
  have h1 := key _ (h _ hl)
  simp only [plainToken, List.getLast?_eq_some_getLast h0, Bool.and_eq_true, decide_eq_true_eq,
    List.all_eq_true, Bool.not_eq_true', ne_eq, Option.some.injEq]
  exact ⟨⟨⟨h0, fun c hc => (key c (h c hc)).1⟩, h1.2.1⟩, h1.2.2⟩

theorem plainToken_decNumeral (v : Int) : plainToken (decNumeral v) = true := by
  have hd : ∀ c ∈ decDigits v.natAbs v.natAbs, isDecDigit c = true :=
    List.all_eq_true.mp (decDigits_all _ _)
  apply plainToken_of_all
  · unfold decNumeral
    split
    · simp
    · exact decDigits_ne_nil _ _
  · intro c hc
    unfold decNumeral at hc
    split at hc
    · rcases List.mem_cons.mp hc with rfl | hc
      · exact .inr rfl
      · exact .inl (hd c hc)
    · exact .inl (hd c hc)

/-- Every token of a canonical spelling is plain. -/
theorem plainToken_spellArgs (f : Fields) : ∀ t ∈ spellArgs f, plainToken t = true := by
  cases f <;> simp [spellArgs, plainToken_regName, plainToken_decNumeral]

/-- A plain token before a separator, with or without its comma, is one raw token. -/
theorem rawTokens_plain {t : Tok} (h : plainToken t = true) (rest : Str) :
    rawTokens (t ++ 0x20#8 :: rest) = t :: rawTokens rest ∧
    rawTokens (t ++ 0x2C#8 :: 0x20#8 :: rest) = (t ++ [0x2C#8]) :: rawTokens rest ∧
    rawTokens t = [t] := by
  simp only [plainToken, Bool.and_eq_true, decide_eq_true_eq, ne_eq] at h
  obtain ⟨⟨⟨h0, hw⟩, -⟩, -⟩ := h
  refine ⟨?_, ?_, rawTokens_last h0 hw⟩
  · have := rawTokens_token h0 hw (sep := [0x20#8]) (by simp) (by decide) rest
    simpa using this
  · have hw' : (t ++ [0x2C#8]).all (fun c => !isWs c) = true := by
      rw [List.all_append, hw]
      decide
    have := rawTokens_token (by simp) hw' (sep := [0x20#8]) (by simp) (by decide) rest
    simpa using this

/-- Cleaning a plain token, with or without its comma, leaves it and goes on. -/
theorem cleanTokens_plain {t : Tok} (h : plainToken t = true) (rest : List Tok) :
    cleanTokens (t :: rest) = t :: cleanTokens rest ∧
    cleanTokens ((t ++ [0x2C#8]) :: rest) = t :: cleanTokens rest := by
  simp only [plainToken, Bool.and_eq_true, decide_eq_true_eq, ne_eq] at h
  obtain ⟨⟨-, hc⟩, hh⟩ := h
  have he : endsWithHash t = false := by simpa [endsWithHash] using hh
  exact ⟨by simp [cleanTokens, stripComma_keep hc, he], by simp [cleanTokens, stripComma_comma, he]⟩

/-- Plain tokens with commas between them are read back. -/
theorem cleanTokens_commaJoin {ts : List Tok} (h : ∀ t ∈ ts, plainToken t = true) :
    cleanTokens (rawTokens (commaJoin ts)) = ts := by
  induction ts with
  | nil => rfl
  | cons t ts ih =>
    have ht := h t (by simp)
    have hts : ∀ t ∈ ts, plainToken t = true := fun u hu => h u (by simp [hu])
    match ts, hts, ih with
    | [], _, _ =>
      rw [commaJoin, (rawTokens_plain ht []).2.2, (cleanTokens_plain ht []).1, cleanTokens]
    | u :: us, hts, ih =>
      rw [commaJoin, (rawTokens_plain ht _).2.1, (cleanTokens_plain ht _).2, ih hts]
      simp

/-- A mnemonic's name begins with no whitespace and no `;`, and is in lower case already. -/
theorem mnemonicName_head (m : Mnemonic) (rest : Str) :
    ((mnemonicName m ++ rest).dropWhile isWs).head? ≠ some 0x3B#8 := by
  cases m <;> simp [mnemonicName, str, isWs]

theorem lower_mnemonicName (m : Mnemonic) : lower (mnemonicName m) = mnemonicName m := by
  cases m <;> decide

/-- The tokenizer reads a canonical line back: the mnemonic and the operand tokens. -/
theorem tokenize_spellLine (m : Mnemonic) {args : List Tok} (h : ∀ t ∈ args, plainToken t = true) :
    tokenize (spellLine m args) = mnemonicName m :: args := by
  rw [tokenize_eq, spellLine, if_neg (mnemonicName_head m _), (rawTokens_plain (plainToken_name m) _).1,
    (cleanTokens_plain (plainToken_name m) _).1, cleanTokens_commaJoin h, lowerFirst,
    lower_mnemonicName]

end Sys2Proof
end

