-- ==== Sys2Proof/Laws/PerInstr.lean ====
section
/-! SUPPORT. Statements made per instruction: the fixed fields of an instruction's word are those of its row
of OPTAB (spec/30_encoding.md R51, R52, R53, R58, R59). -/

namespace Sys2Proof.Laws

open Machine

/-- The opcode field of an instruction's word is its row's opcode; where the row has a function code, the
function-code field is that code and the padding is 000. -/
def OpcodeField.Statement (i : Instr) : Prop :=
  ∀ (c : Codes) (w : Word), encode c i = some w →
    fieldOpcode w = entryOpcode (opEntry c i.mnemonic) ∧
    ∀ fn, entryFn (opEntry c i.mnemonic) = some fn → fieldFn w = fn ∧ fieldPad w = pad

/-- The fixed fields of a packed word, whatever the row. -/
theorem OpcodeField.of_packFields {e : OpEntry} {f : Fields} {w : Word} (h : packFields e f = some w) :
    fieldOpcode w = entryOpcode e ∧ ∀ fn, entryFn e = some fn → fieldFn w = fn ∧ fieldPad w = pad := by
  cases e <;> cases f <;> simp only [packFields, Option.some.injEq, reduceCtorEq] at h <;> subst h <;>
    simp [entryOpcode, entryFn]

/-- The statement holds of any instruction, since its word is packed from its row. -/
theorem OpcodeField.of_encode (i : Instr) : OpcodeField.Statement i := by
  intro c w h
  obtain ⟨f, -, hf⟩ := Option.bind_eq_some_iff.mp h
  exact OpcodeField.of_packFields hf

theorem OpcodeField.add (line : Str) (args : List Tok) : OpcodeField.Statement (.add line args) :=
  OpcodeField.of_encode _

theorem OpcodeField.sub (line : Str) (args : List Tok) : OpcodeField.Statement (.sub line args) :=
  OpcodeField.of_encode _

theorem OpcodeField.and (line : Str) (args : List Tok) : OpcodeField.Statement (.and line args) :=
  OpcodeField.of_encode _

theorem OpcodeField.or (line : Str) (args : List Tok) : OpcodeField.Statement (.or line args) :=
  OpcodeField.of_encode _

theorem OpcodeField.slt (line : Str) (args : List Tok) : OpcodeField.Statement (.slt line args) :=
  OpcodeField.of_encode _

theorem OpcodeField.mvz (line : Str) (args : List Tok) : OpcodeField.Statement (.mvz line args) :=
  OpcodeField.of_encode _

theorem OpcodeField.addi (line : Str) (args : List Tok) : OpcodeField.Statement (.addi line args) :=
  OpcodeField.of_encode _

theorem OpcodeField.andi (line : Str) (args : List Tok) : OpcodeField.Statement (.andi line args) :=
  OpcodeField.of_encode _

theorem OpcodeField.lw (line : Str) (args : List Tok) : OpcodeField.Statement (.lw line args) :=
  OpcodeField.of_encode _

theorem OpcodeField.lea (line : Str) (args : List Tok) : OpcodeField.Statement (.lea line args) :=
  OpcodeField.of_encode _

theorem OpcodeField.sw (line : Str) (args : List Tok) : OpcodeField.Statement (.sw line args) :=
  OpcodeField.of_encode _

theorem OpcodeField.pcm (line : Str) (args : List Tok) : OpcodeField.Statement (.pcm line args) :=
  OpcodeField.of_encode _

theorem OpcodeField.beq (line : Str) (args : List Tok) : OpcodeField.Statement (.beq line args) :=
  OpcodeField.of_encode _

theorem OpcodeField.jump (line : Str) (args : List Tok) : OpcodeField.Statement (.jump line args) :=
  OpcodeField.of_encode _

end Sys2Proof.Laws
end

