-- ==== Sys2Proof/Laws/Step.lean ====
section
/-! SUPPORT. What one step can do, once for all inputs. -/

namespace Sys2Proof.Machine

/-- What a line step that goes on did: it ignored the line, skipped it, or settled it. -/
theorem lineStep_cases {line : Str} {s t : State} (h : lineStep line s = .next t) :
    (s.halt = true ∧ t = ignoreInput s) ∨
    (s.halt = false ∧ tokenize line = [] ∧ t = skipLine s) ∨
    (s.halt = false ∧ tokenize line ≠ [] ∧ ∃ r, t = settle line r s) := by
  unfold lineStep at h
  cases hh : s.halt with
  | true =>
    simp only [hh, if_true, Host.Outcome.next.injEq] at h
    exact .inl ⟨rfl, h.symm⟩
  | false =>
    simp only [hh, Bool.false_eq_true, if_false] at h
    split at h
    · simp at h
    split at h
    · simp at h
    right
    unfold fetchLine at h
    cases ht : tokenize line with
    | nil =>
      simp only [ht, Host.Outcome.next.injEq] at h
      exact .inl ⟨rfl, rfl, h.symm⟩
    | cons tok args =>
      refine .inr ⟨rfl, by simp, ?_⟩
      simp only [ht] at h
      cases hc : classify s.optab tok with
      | ok row =>
        simp only [hc] at h
        obtain ⟨r, hr⟩ := exec_settles (row.1.instr line args) s
        rw [hr, instr_line, Host.Outcome.next.injEq] at h
        exact ⟨r, h.symm⟩
      | error e =>
        simp only [hc, Host.Outcome.next.injEq] at h
        exact ⟨_, h.symm⟩

/-- What a step that goes on did, input by input. -/
theorem step_cases {s t : State} (h : step s = .next t) :
    (s.pending = [] ∧ t = s) ∨
    (∃ rest, s.pending = .reset :: rest ∧ t = resetBlock { s with pending := rest }) ∨
    (∃ line rest, s.pending = .line line :: rest ∧ s.started = true ∧
      lineStep line { s with pending := rest } = .next t) ∨
    (∃ rest, s.pending = .srcFail :: rest ∧ s.started = true ∧
      t = srcFail { s with pending := rest }) := by
  unfold step at h
  cases hp : s.pending with
  | nil =>
    simp only [hp, Host.Outcome.next.injEq] at h
    exact .inl ⟨rfl, h.symm⟩
  | cons i rest =>
    right
    simp only [hp] at h
    cases i with
    | reset =>
      simp only [takeInput, Host.Outcome.next.injEq] at h
      exact .inl ⟨rest, rfl, h.symm⟩
    | line l =>
      simp only [takeInput] at h
      split at h
      · rename_i hs
        exact .inr (.inl ⟨l, rest, rfl, hs, h⟩)
      · simp at h
    | srcFail =>
      simp only [takeInput] at h
      split at h
      · rename_i hs
        rw [Host.Outcome.next.injEq] at h
        exact .inr (.inr ⟨rest, rfl, hs, h.symm⟩)
      · simp at h

/-- A line within the bounds, to a block that is not halted, with the tables in place: skipped, or settled
with what its row's encoder answers. -/
theorem lineStep_eq {c : Codes} {line : Str} {s : State} (ht : s.optab = opTabRows c)
    (hh : s.halt = false) (hf : s.fits line = true) :
    lineStep line s = .next (match tokenize line with
      | [] => skipLine s
      | t :: args => settle line
          (do encodeRow s.regtab (← classify s.optab t).2 args) s) := by
  simp only [State.fits, Bool.and_eq_true] at hf
  simp only [lineStep, hh, Bool.false_eq_true, if_false, hf.1, hf.2, fetchLine]
  cases htok : tokenize line with
  | nil => rfl
  | cons t args =>
    cases hc : lookupOp s.optab (lower t) with
    | none => simp [classify, hc, bind, Except.bind]
    | some row =>
      obtain ⟨m, e⟩ := row
      have hrow := hc
      rw [ht] at hrow
      obtain ⟨-, rfl⟩ := lookupOp_some hrow
      simp [classify, hc, exec_eq ht, bind, Except.bind]

/-- The result of a line, read off the same answer. -/
theorem lineResult_eq (rt : RegTab) (ot : OpTab) (line : Str) :
    lineResult rt ot line = match tokenize line with
      | [] => .skip
      | t :: args => match (do encodeRow rt (← classify ot t).2 args) with
        | .ok w => .word w
        | .error e => .error (eventOf line e) := by
  unfold lineResult encodeTokens
  cases tokenize line with
  | nil => rfl
  | cons t args =>
    cases hc : classify ot t with
    | error e => simp [hc, bind, Except.bind]
    | ok row =>
      cases he : encodeRow rt row.2 args <;> simp [hc, he, bind, Except.bind, pure, Except.pure]

/-- A word that a row of OPTAB encodes has one of the three forms of R61. -/
theorem encodeRow_image {c : Codes} {rt : RegTab} {m : Mnemonic} {args : List Tok} {w : Word}
    (h : encodeRow rt (opEntry c m) args = .ok w) : InImage c w := by
  have hl : args.length = operandCount (entryShape (opEntry c m)) := by
    by_contra hne
    rw [encodeRow_bad hne] at h
    simp at h
  cases he : opEntry c m with
  | r fn =>
    rw [he] at h hl
    obtain ⟨t1, t2, t3, rfl⟩ := three_of_length hl
    simp only [encodeRow, encodeR_three] at h
    split at h <;> simp only [Except.ok.injEq, reduceCtorEq] at h
    refine .inl ⟨fn, ?_, _, _, _, h.symm⟩
    cases m <;> simp only [opEntry, OpEntry.r.injEq, reduceCtorEq] at he <;> subst he <;>
      simp [Codes.fns, Codes.openFns]
  | i opc =>
    rw [he] at h hl
    obtain ⟨t1, t2, t3, rfl⟩ := three_of_length hl
    simp only [encodeRow, encodeI_three] at h
    split at h <;> try simp at h
    cases hi : imm9 t3 <;> simp only [hi, Except.map, Except.ok.injEq, reduceCtorEq] at h
    refine .inr (.inl ⟨opc, ?_, _, _, _, h.symm⟩)
    cases m <;> simp only [opEntry, OpEntry.i.injEq, reduceCtorEq] at he <;> subst he <;>
      simp [Codes.iOpcodes]
  | j =>
    rw [he] at h hl
    obtain ⟨t1, rfl⟩ := one_of_length hl
    simp only [encodeRow, encodeJ_one] at h
    cases hi : tgt12 t1 <;> simp only [hi, Except.map, Except.ok.injEq, reduceCtorEq] at h
    exact .inr (.inr ⟨_, h.symm⟩)

/-- The errors that a shape's encoder can raise (R143). -/
def errorOfShape (sh : Shape) (args : List Tok) : EncError → Prop
  | .arity n k => n = operandCount sh + 1 ∧ k = args.length + 1 ∧ args.length ≠ operandCount sh
  | .invalidRegister t => sh ≠ .j ∧ t ∈ args
  | .range t b => t ∈ args ∧ (sh = .i ∧ (b = 255 ∨ b = -256) ∨ sh = .j ∧ (b = 0 ∨ b = 4095))
  | .malformedNumeral t => sh ≠ .r ∧ t ∈ args ∧ parseNumeral t = none
  | .unknownInstruction _ => False

/-- What a row's encoder raises is an error of its shape. -/
theorem encodeRow_error {rt : RegTab} {e : OpEntry} {args : List Tok} {err : EncError}
    (h : encodeRow rt e args = .error err) : errorOfShape (entryShape e) args err := by
  by_cases hl : args.length = operandCount (entryShape e)
  · cases e with
    | r fn =>
      obtain ⟨t1, t2, t3, rfl⟩ := three_of_length hl
      simp only [encodeRow, encodeR_three] at h
      split at h <;> simp only [Except.error.injEq, reduceCtorEq] at h <;> subst h <;>
        simp [errorOfShape, entryShape]
    | i opc =>
      obtain ⟨t1, t2, t3, rfl⟩ := three_of_length hl
      simp only [encodeRow, encodeI_three] at h
      split at h
      · cases hn : parseNumeral t3 with
        | none =>
          rw [imm9_of_none hn] at h
          simp only [Except.map, Except.error.injEq] at h
          subst h
          simp [errorOfShape, entryShape, hn]
        | some v =>
          rw [imm9_of_some hn] at h
          split at h
          · simp only [Except.map, Except.error.injEq] at h
            subst h
            simp [errorOfShape, entryShape, immMax]
          · split at h <;> simp only [Except.map, Except.error.injEq, reduceCtorEq] at h
            subst h
            simp [errorOfShape, entryShape, immMin]
      · simp only [Except.error.injEq] at h
        subst h
        simp [errorOfShape, entryShape]
      · simp only [Except.error.injEq] at h
        subst h
        simp [errorOfShape, entryShape]
    | j =>
      obtain ⟨t1, rfl⟩ := one_of_length hl
      simp only [encodeRow, encodeJ_one] at h
      cases hn : parseNumeral t1 with
      | none =>
        rw [tgt12_of_none hn] at h
        simp only [Except.map, Except.error.injEq] at h
        subst h
        simp [errorOfShape, entryShape, hn]
      | some v =>
        rw [tgt12_of_some hn] at h
        split at h
        · simp only [Except.map, Except.error.injEq] at h
          subst h
          simp [errorOfShape, entryShape, tgtMin]
        · split at h <;> simp only [Except.map, Except.error.injEq, reduceCtorEq] at h
          subst h
          simp [errorOfShape, entryShape, tgtMax]
  · rw [encodeRow_bad hl, Except.error.injEq] at h
    subst h
    exact ⟨rfl, rfl, hl⟩

/-- The event of an error of some shape has the spec's form (R136). -/
theorem eventOk_of_shape {sh : Shape} {args : List Tok} {err : EncError} (line : Str)
    (h : errorOfShape sh args err) : EventOk (eventOf line err) := by
  cases err with
  | arity n k =>
    obtain ⟨rfl, -, -⟩ := h
    cases sh <;> simp [EventOk, eventOf, errorKind, errorToken, errorBound, errorExpected, errorFound,
      operandCount]
  | range t b =>
    have hb : b = 255 ∨ b = -256 ∨ b = 4095 ∨ b = 0 := by
      obtain ⟨-, ⟨-, h⟩ | ⟨-, h⟩⟩ := h <;> omega
    simp [EventOk, eventOf, errorKind, errorToken, errorBound, errorExpected, errorFound, hb]
  | invalidRegister t =>
    simp [EventOk, eventOf, errorKind, errorToken, errorBound, errorExpected, errorFound]
  | malformedNumeral t =>
    simp [EventOk, eventOf, errorKind, errorToken, errorBound, errorExpected, errorFound]
  | unknownInstruction t => exact h.elim

/-- The event of an unknown mnemonic has the spec's form (R134, R136). -/
theorem eventOk_unknown (line : Str) (t : Tok) :
    EventOk (eventOf line (.unknownInstruction t)) := by
  simp [EventOk, eventOf, errorKind, errorToken, errorBound, errorExpected, errorFound]

/-- Ignoring an input is its result IGNORED and nothing else (R146, R147). -/
theorem ignoreInput_eq (s : State) : ignoreInput s = s.afterResult s.pending .ignored := by
  simp [ignoreInput, recordResult, wordsOf, errorsOf, resultWord?, resultError?]

/-- Skipping a line is its result SKIP and nothing else (R149). -/
theorem skipLine_eq (s : State) : skipLine s = s.afterResult s.pending .skip := by
  simp [skipLine, recordResult, wordsOf, errorsOf, resultWord?, resultError?]

/-- Emitting a word is its result WORD, appended to OUT (R15, R24). -/
theorem emitWord_eq (w : Word) (s : State) : emitWord w s = s.afterResult s.pending (.word w) := by
  simp [emitWord, recordResult, wordsOf, errorsOf, resultWord?, resultError?]

/-- Taking an error is its result ERROR, appended to ERR (R140). -/
theorem takeError_eq (line : Str) (e : EncError) (s : State) :
    takeError line e s = s.afterResult s.pending (.error (eventOf line e)) := by
  simp [takeError, recordResult, wordsOf, errorsOf, resultWord?, resultError?]

/-- A line step that goes on has one result, never FATAL, IGNORED exactly while HALT is 1, and does nothing
but append it. -/
theorem lineStep_frame {line : Str} {s t : State} (h : lineStep line s = .next t) :
    ∃ r : Result, r ≠ .fatal ∧ (r ≠ .ignored ↔ s.halt = false) ∧ t = s.afterResult s.pending r := by
  rcases lineStep_cases h with ⟨h1, rfl⟩ | ⟨h1, -, rfl⟩ | ⟨h1, -, r, rfl⟩
  · exact ⟨.ignored, by simp, by simp [h1], ignoreInput_eq s⟩
  · exact ⟨.skip, by simp, by simp [h1], skipLine_eq s⟩
  · cases r with
    | ok w => exact ⟨.word w, by simp, by simp [h1], emitWord_eq w s⟩
    | error e => exact ⟨.error (eventOf line e), by simp, by simp [h1], takeError_eq line e s⟩

/-- The line step of a block that is not halted, on a line within the bounds: the result is line_result's
(R80). -/
theorem lineStep_eq_lineResult {c : Codes} {line : Str} {s : State} (ht : s.Tables c)
    (hh : s.halt = false) (hf : s.fits line = true) :
    lineStep line s
      = .next (s.afterResult s.pending (lineResult regTabRows (opTabRows c) line)) := by
  obtain ⟨ht, ho⟩ := ht
  rw [lineStep_eq ho hh hf, lineResult_eq]
  cases tokenize line with
  | nil => simp only [skipLine_eq]
  | cons t args =>
    simp only [ht, ho]
    cases (do encodeRow regTabRows (← classify (opTabRows c) t).2 args : Except EncError Word) with
    | ok w => simp only [settle_ok, emitWord_eq]
    | error e => simp only [settle_error, takeError_eq]

/-- The host's run of the core is `runSteps`. -/
theorem core_run_eq_runSteps (k : Nat) (s : State) : Sys2Proof.core.run k s = runSteps k s := by
  induction k generalizing s with
  | zero => rfl
  | succ k ih =>
    refine (Host.Core.run.eq_2 Sys2Proof.core s k).trans ?_
    have hc : Sys2Proof.core.step s = step s := rfl
    rw [hc, runSteps]
    cases step s with
    | next t => exact ih t
    | fault r => rfl
    | refused r => rfl

/-- A run whose first step goes on. -/
theorem runSteps_succ {k : Nat} {s t : State} (h : step s = .next t) :
    runSteps (k + 1) s = runSteps k t := by simp only [runSteps, h]

end Sys2Proof.Machine
end

