-- ==== Sys2Proof/Tests/Slice0.lean ====
section
/-! SUPPORT. Tests of the model. Expected results are the vectors of spec/95_test_vectors.md (the vector's
id is in the docstring); a `witness_` theorem shows a state and operands that meet the hypotheses of the
obligation it is named after. REF (spec/92_eei_decisions.md D9) fills the open codes here and nowhere else. -/

namespace Sys2Proof.Tests

open Machine

/-- The state after RESET of a block whose CODES are REF. -/
def refState : State := { State.reset with optab := opTabRows Codes.ref }

/-- The same with inputs presented. -/
def presented (inputs : List Input) : State := { refState with pending := inputs }

/-- The next state of an outcome, if there is one. -/
def nextOf : Host.Outcome State Fault Refusal → Option State
  | .next s => some s
  | _ => none

/-- The result of one line after RESET. -/
def resultOf (line : String) : Option (List Result) :=
  (nextOf (step (presented [.line (str line)]))).map (·.results)

/-- What one line after RESET leaves in OUT and ERR, less the leading zero word. -/
def outputsOf (line : String) : Option (List Word × List ErrorEvent) :=
  (nextOf (step (presented [.line (str line)]))).map fun s => (s.out.tail, s.err)

/-- One word in OUT and nothing in ERR. -/
def gives (line : String) (w : Word) : Bool := outputsOf line = some ([w], [])

/-- One event in ERR, with the raw line, and nothing in OUT. -/
def raises (line : String) (e : Str → ErrorEvent) : Bool := outputsOf line = some ([], [e (str line)])

/- ## Well-formedness: one ill-formed term for each check -/

/-- V1 is well formed, by all four checks. -/
theorem test_wf_good :
    (Instr.add (str "add r1, r2, r3") [str "r1", str "r2", str "r3"]).WellFormed = true := by decide

/-- RV20: too few tokens; the other checks pass. -/
theorem test_wf_refuses_arity :
    let i := Instr.add (str "add r1, r2") [str "r1", str "r2"]
    i.arityOk = false ∧ i.regsOk = true ∧ i.numeralsOk = true ∧ i.rangesOk = true ∧
      i.WellFormed = false := by decide

/-- RV23: a register name in upper case; the other checks pass. -/
theorem test_wf_refuses_register :
    let i := Instr.add (str "add R1, r2, r3") [str "R1", str "r2", str "r3"]
    i.arityOk = true ∧ i.regsOk = false ∧ i.numeralsOk = true ∧ i.rangesOk = true ∧
      i.WellFormed = false := by decide

/-- IV36: a numeral with an upper-case prefix; the other checks pass. -/
theorem test_wf_refuses_numeral :
    let i := Instr.beq (str "beq r1, r2, 0B1") [str "r1", str "r2", str "0B1"]
    i.arityOk = true ∧ i.regsOk = true ∧ i.numeralsOk = false ∧ i.rangesOk = true ∧
      i.WellFormed = false := by decide

/-- IV23 and JV25: values outside the two ranges; the other checks pass. -/
theorem test_wf_refuses_range :
    let i := Instr.addi (str "addi r1, r2, 256") [str "r1", str "r2", str "256"]
    let j := Instr.jump (str "jump -1") [str "-1"]
    i.arityOk = true ∧ i.regsOk = true ∧ i.numeralsOk = true ∧ i.rangesOk = false ∧
      i.WellFormed = false ∧ j.numeralsOk = true ∧ j.rangesOk = false ∧ j.WellFormed = false := by
  decide

/- ## Decoding: a word written out from the spec's encoding of every constructor -/

/-- V1, D1: opcode 0000, r2 = 010, r3 = 011, r1 = 001, 000, 000. -/
theorem test_decode_add : decode Codes.ref 0b0000010011001000000#19
    = some (.add (str "add r1, r2, r3") [str "r1", str "r2", str "r3"]) := by decide

/-- RV7 -/
theorem test_decode_sub : decode Codes.ref 0b0000000100111000001#19
    = some (.sub (str "sub r7, r0, r4") [str "r7", str "r0", str "r4"]) := by decide

/-- RV8 -/
theorem test_decode_and : decode Codes.ref 0b0000010010010000010#19
    = some (.and (str "and r2, r2, r2") [str "r2", str "r2", str "r2"]) := by decide

/-- RV9 -/
theorem test_decode_or : decode Codes.ref 0b0000101110011000011#19
    = some (.or (str "or r3, r5, r6") [str "r3", str "r5", str "r6"]) := by decide

/-- RV10 -/
theorem test_decode_slt : decode Codes.ref 0b0000111001000000100#19
    = some (.slt (str "slt r0, r7, r1") [str "r0", str "r7", str "r1"]) := by decide

/-- RV11 -/
theorem test_decode_mvz : decode Codes.ref 0b0000100101110000101#19
    = some (.mvz (str "mvz r6, r4, r5") [str "r6", str "r4", str "r5"]) := by decide

/-- IV1, D4 -/
theorem test_decode_addi : decode Codes.ref 0b0001001100000000101#19
    = some (.addi (str "addi r4, r1, 5") [str "r4", str "r1", str "5"]) := by decide

/-- IV10 -/
theorem test_decode_andi : decode Codes.ref 0b0010011011111111111#19
    = some (.andi (str "andi r3, r3, -1") [str "r3", str "r3", str "-1"]) := by decide

/-- IV11: the immediate is 12, spelled in decimal. -/
theorem test_decode_lw : decode Codes.ref 0b0011101010000001100#19
    = some (.lw (str "lw r2, r5, 12") [str "r2", str "r5", str "12"]) := by decide

/-- IV13 -/
theorem test_decode_lea : decode Codes.ref 0b0100000001011111111#19
    = some (.lea (str "lea r1, r0, 255") [str "r1", str "r0", str "255"]) := by decide

/-- IV14 -/
theorem test_decode_sw : decode Codes.ref 0b0101101010100000000#19
    = some (.sw (str "sw r2, r5, -256") [str "r2", str "r5", str "-256"]) := by decide

/-- IV15 -/
theorem test_decode_pcm : decode Codes.ref 0b0110111000000000000#19
    = some (.pcm (str "pcm r0, r7, 0") [str "r0", str "r7", str "0"]) := by decide

/-- IV16, D5 -/
theorem test_decode_beq : decode Codes.ref 0b0111010001111111101#19
    = some (.beq (str "beq r1, r2, -3") [str "r1", str "r2", str "-3"]) := by decide

/-- JV1, D3 -/
theorem test_decode_jump : decode Codes.ref 0b1111000000000001010#19
    = some (.jump (str "jump 10") [str "10"]) := by decide

/-- D6 to D11: what no row of the table matches is refused. -/
theorem test_decode_refuses :
    decode Codes.ref 0b0000010011001001000#19 = none ∧
    decode Codes.ref 0b0000010011001000110#19 = none ∧
    decode Codes.ref 0b0000010011001000111#19 = none ∧
    decode Codes.ref 0b1111001000000001010#19 = none ∧
    decode Codes.ref 0b1000000000000000000#19 = none ∧
    decode Codes.ref 0b1110111111111111111#19 = none := by decide

/-- D6 and D9 are refused, D1 to D3 decode, under the machine's own open codes (the `add` and the `jump`
row need no open code). -/
theorem test_decode_table_word :
    decodeTableWord 24 0x02640 = some (.add (str "add r1, r2, r3") [str "r1", str "r2", str "r3"]) ∧
    decodeTableWord 24 0x00000 = some (.add (str "add r0, r0, r0") [str "r0", str "r0", str "r0"]) ∧
    decodeTableWord 24 0x7800A = some (.jump (str "jump 10") [str "10"]) ∧
    decodeTableWord 24 0x02648 = none ∧ decodeTableWord 24 0x7900A = none ∧
    decodeTableWord 24 0x80000 = none := by decide

/- ## Each instruction: its line through the step -/

/-- V1 -/
theorem test_step_add : gives "add r1, r2, r3" 0b0000010011001000000#19 := by decide

/-- RV7 -/
theorem test_step_sub : gives "sub r7, r0, r4" 0b0000000100111000001#19 := by decide

/-- RV8 -/
theorem test_step_and : gives "and r2, r2, r2" 0b0000010010010000010#19 := by decide

/-- RV9 -/
theorem test_step_or : gives "or r3, r5, r6" 0b0000101110011000011#19 := by decide

/-- RV14: an upper-case mnemonic and no commas. -/
theorem test_step_slt : gives "SLT r4 r1 r2" 0b0000001010100000100#19 := by decide

/-- RV11 -/
theorem test_step_mvz : gives "mvz r6, r4, r5" 0b0000100101110000101#19 := by decide

/-- IV7: a binary immediate. -/
theorem test_step_addi : gives "addi r1, r2, 0b00001010" 0b0001010001000001010#19 := by decide

/-- IV10 -/
theorem test_step_andi : gives "andi r3, r3, -1" 0b0010011011111111111#19 := by decide

/-- IV12 -/
theorem test_step_lw : gives "LW r1, r2, 3" 0b0011010001000000011#19 := by decide

/-- IV13: the largest immediate. -/
theorem test_step_lea : gives "lea r1, r0, 255" 0b0100000001011111111#19 := by decide

/-- IV14: the smallest immediate. -/
theorem test_step_sw : gives "sw r2, r5, -256" 0b0101101010100000000#19 := by decide

/-- P4, step 7 -/
theorem test_step_pcm : gives "pcm r3, r0, 0" 0b0110000011000000000#19 := by decide

/-- IV17: the extreme registers, swapped. -/
theorem test_step_beq : gives "beq r7, r0, 0b1" 0b0111000111000000001#19 := by decide

/-- JV8: the largest target, in binary. -/
theorem test_step_jump : gives "jump 0b111111111111" 0b1111000111111111111#19 := by decide

/-- RV4, RV5, RV6: a one in each of the three register positions. -/
theorem test_register_positions :
    gives "add r1, r0, r0" 0x00040#19 ∧ gives "add r0, r1, r0" 0x01000#19 ∧
    gives "add r0, r0, r1" 0x00200#19 := by decide

/- ## The tokenizer -/

/-- T1 to T8: lines of no tokens. -/
theorem test_tokens_skip :
    ["", "   ", "\t", "; note", "  ;add r1, r2, r3", "# note", "#", "#,"].all
      (fun l => tokenize (str l) == []) := by decide

/-- T10, T13 to T15, T17 to T19, T23: layouts of one instruction. -/
theorem test_tokens_layouts :
    ["add r1, r2, r3 # sum", "add r1, r2, r3 sum#", "add r1, r2, r3 #, x", "add r1, r2, r3 ##",
      "add, r1 r2 r3,", "add r1 r2 r3", "\t add\tr1,\tr2,  r3 \t", "AdD r1, r2, r3"].all
      (fun l => tokenize (str l) == [str "add", str "r1", str "r2", str "r3"]) := by decide

/-- T9, T11, T12, T16, T20 to T22, T25, T26, T28, T29: `#` and commas elsewhere. -/
theorem test_tokens_corners :
    tokenize (str "#note") = [str "#note"] ∧
    tokenize (str "add r1, r2, r3 #sum") = [str "add", str "r1", str "r2", str "r3", str "#sum"] ∧
    tokenize (str "add r1, r2, r3# sum") = [str "add", str "r1", str "r2"] ∧
    tokenize (str "add r1, r2 ; x") = [str "add", str "r1", str "r2", str ";", str "x"] ∧
    tokenize (str "add r1 , r2, r3") = [str "add", str "r1", str "", str "r2", str "r3"] ∧
    tokenize (str "add r1,, r2, r3") = [str "add", str "r1,", str "r2", str "r3"] ∧
    tokenize (str "add r1,r2,r3") = [str "add", str "r1,r2,r3"] ∧
    tokenize (str ",") = [str ""] ∧
    tokenize (str ", add r1") = [str "", str "add", str "r1"] ∧
    tokenize (str "jump 10# x") = [str "jump"] ∧
    tokenize (str "jump ,") = [str "jump", str ""] ∧
    tokenize (str "JUMP 0B1") = [str "jump", str "0B1"] := by decide

/-- D5, U3: a carriage return, a line feed and a character above 0x7F are ordinary characters. -/
theorem test_tokens_ordinary :
    tokenize [0x0D#8, 0x20#8, 0x0A#8, 0x09#8, 0xC0#8] = [[0x0D#8], [0x0A#8], [0xC0#8]] := by decide

/- ## Numerals -/

/-- N1 to N9, N16, N21, N25, N27: numerals and their values. -/
theorem test_numerals :
    parseNumeral (str "0") = some 0 ∧ parseNumeral (str "-0") = some 0 ∧
    parseNumeral (str "-1") = some (-1) ∧ parseNumeral (str "10") = some 10 ∧
    parseNumeral (str "0b00001010") = some 10 ∧ parseNumeral (str "007") = some 7 ∧
    parseNumeral (str "010") = some 10 ∧ parseNumeral (str "-257") = some (-257) ∧
    parseNumeral (str "0b111111111") = some 511 ∧ parseNumeral (str "4096") = some 4096 ∧
    parseNumeral (str "0b000000000000000001") = some 1 := by decide

/-- N28, N29: values of any size. -/
theorem test_numerals_large :
    parseNumeral (str "99999999999999999999") = some 99999999999999999999 ∧
    parseNumeral (str "-99999999999999999999") = some (-99999999999999999999) := by decide

/-- N30 to N42: text that is no numeral. -/
theorem test_numerals_malformed :
    ["0b", "0b2", "0B1", "-0b1", "+5", "-", "--5", "0x1F", "12abc", "5.0", "abc", "r1", ""].all
      (fun t => parseNumeral (str t) == none) := by decide

/-- N10, N12, N15, N22, N23: fields. -/
theorem test_fields :
    immField (-3) = 0b111111101#9 ∧ immField (-128) = 0b110000000#9 ∧
    immField (-256) = 0b100000000#9 ∧ tgtField 2048 = 0b100000000000#12 ∧
    tgtField 4095 = 0b111111111111#12 := by decide

/- ## Errors and their order -/

/-- RV20 to RV22, IV20 to IV22, JV20 to JV22: token counts. -/
theorem test_arity :
    raises "add r1, r2" (arityEvent · 4 3) ∧ raises "add r1, r2, r3, r4" (arityEvent · 4 5) ∧
    raises "mvz" (arityEvent · 4 1) ∧ raises "sw r1" (arityEvent · 4 2) ∧
    raises "addi r1, r2, 1 2" (arityEvent · 4 5) ∧ raises "jump" (arityEvent · 2 1) ∧
    raises "jump 10, 11" (arityEvent · 2 3) := by decide

/-- RV23 to RV29, IV31, IV32: register positions. -/
theorem test_registers :
    raises "add R1, r2, r3" (registerEvent · (str "R1")) ∧
    raises "add r1, r8, r3" (registerEvent · (str "r8")) ∧
    raises "add r1, r2, r9" (registerEvent · (str "r9")) ∧
    raises "sub r1, r2, 5" (registerEvent · (str "5")) ∧
    raises "addi r1, 5, r3" (registerEvent · (str "5")) ∧
    raises "ADDI R1, r2, 5" (registerEvent · (str "R1")) := by decide

/-- IV23 to IV30, JV23 to JV29: numeral positions. -/
theorem test_numeral_errors :
    raises "addi r1, r2, 256" (rangeEvent · (str "256") 255) ∧
    raises "addi r1, r2, -257" (rangeEvent · (str "-257") (-256)) ∧
    raises "addi r1, r2, 0b111111111" (rangeEvent · (str "0b111111111") 255) ∧
    raises "addi r1, r2, r3" (malformedEvent · (str "r3")) ∧
    raises "jump 4096" (rangeEvent · (str "4096") 4095) ∧
    raises "jump -1" (rangeEvent · (str "-1") 0) ∧
    raises "jump 1x" (malformedEvent · (str "1x")) := by decide

/-- E1, E3, E7, E8, T25: token 0 is no mnemonic. -/
theorem test_unknown :
    raises "foo" (unknownEvent · (str "foo")) ∧
    raises "FOO r1, r2, r3" (unknownEvent · (str "foo")) ∧
    raises ".word 5" (unknownEvent · (str ".word")) ∧
    raises "addx r1, r2, r3" (unknownEvent · (str "addx")) ∧
    raises "," (unknownEvent · (str "")) := by decide

/-- E2, E9 to E16: several faults in one line, one report. -/
theorem test_priority :
    raises "foo r9" (unknownEvent · (str "foo")) ∧ raises "add r9, 5" (arityEvent · 4 3) ∧
    raises "jump abc 7" (arityEvent · 2 3) ∧ raises "add r9, r8, r3" (registerEvent · (str "r8")) ∧
    raises "add r9, r2, r8" (registerEvent · (str "r8")) ∧
    raises "addi r9, r8, abc" (registerEvent · (str "r8")) ∧
    raises "addi r9, r1, 999" (registerEvent · (str "r9")) ∧
    raises "addi r1, r2, 999x" (malformedEvent · (str "999x")) ∧
    raises "jump -5x" (malformedEvent · (str "-5x")) := by decide

/- ## Reset, halt and the host side -/

/-- Q2: a skipped line. -/
theorem test_skip : outputsOf "; note" = some ([], []) ∧ resultOf "; note" = some [.skip] := by decide

/-- Q7, Q10: a source failure, and a second. -/
theorem test_source_failure :
    (nextOf (step (presented [.srcFail]))).map (fun s => (s.halt, s.out, s.results))
      = some (true, [0#19], [.fatal]) ∧
    (nextOf (step { presented [.srcFail] with halt := true })).map (fun s => (s.halt, s.results))
      = some (true, [.ignored]) := by decide

/-- Q9: no error event while halted. -/
theorem test_halted_line :
    (nextOf (step { presented [.line (str "foo")] with halt := true })).map
      (fun s => (s.err, s.out, s.results)) = some ([], [0#19], [.ignored]) := by decide

/-- Q11: RESET from a halted state with words and events. -/
theorem test_reset_clears :
    (nextOf (step { presented [.reset] with
        halt := true, out := [0#19, 1#19], err := [arityEvent [] 4 3] })).map
      (fun s => (s.halt, s.lead, s.out, s.err)) = some (false, true, [0#19], []) := by decide

/-- A table word presented to the reset state runs in the next step (the `add` and `jump` rows). -/
theorem test_fetch_word :
    (nextOf (step (refState.withFetchWord 24 0x02640))).map (·.out) = some [0#19, 0x02640#19] ∧
    (nextOf (step (refState.withFetchWord 24 0x7800A))).map (·.out) = some [0#19, 0x7800A#19] := by
  decide

/-- R35, V1: the text of a word. -/
theorem test_text : wordText 0b0000010011001000000#19 = str "0000010011001000000" := by decide

/- ## Witnesses: states and operands that meet the hypotheses of the obligations -/

/-- A state halted, never reset, with a RESET presented. -/
theorem witness_ResetInputGivesTheResetStateFromAnyState :
    let s := { presented [.reset, .srcFail] with halt := true, started := false }
    s.pending = .reset :: [.srcFail] := by decide

/-- A step of each kind goes on: idle, RESET, a line, a source failure. -/
theorem witness_step_goes_on :
    (nextOf (step refState)).isSome ∧ (nextOf (step (presented [.reset]))).isSome ∧
    (nextOf (step (presented [.line (str "add r1, r2, r3")]))).isSome ∧
    (nextOf (step (presented [.srcFail]))).isSome := by decide

/-- The same as equations, for NoStepWritesTheTables, StepTakesExactlyTheNextInput,
LineStepAppendsAtMostOnce and OutputsAreAppendOnly: an instruction line that encodes. -/
theorem witness_line_step :
    step (presented [.line (str "jump 1")])
      = .next (refState.plusWord 0b1111000000000000001#19) ∧
    (∀ rest, (presented [.line (str "jump 1")]).pending ≠ .reset :: rest) := by
  refine ⟨rfl, fun rest h => ?_⟩
  simp [presented] at h

/-- RTypeLinesEmitTheirWord, at the ends of the register range. -/
theorem witness_RTypeLinesEmitTheirWord :
    refState.Tables Codes.ref ∧ lookupReg regTabRows (str "r0") = some 0#3 ∧
    lookupReg regTabRows (str "r3") = some 3#3 ∧ lookupReg regTabRows (str "r7") = some 7#3 := by
  decide

/-- ITypeLinesEmitTheirWord and ImmediateFieldIsTwosComplement, at both ends of the range and at its sign
change. -/
theorem witness_ITypeLinesEmitTheirWord :
    refState.Tables Codes.ref ∧ lookupReg regTabRows (str "r7") = some 7#3 ∧
    lookupReg regTabRows (str "r0") = some 0#3 ∧ parseNumeral (str "-256") = some (-256) ∧
    parseNumeral (str "255") = some 255 ∧ parseNumeral (str "0b11111111") = some 255 ∧
    parseNumeral (str "-1") = some (-1) ∧ parseNumeral (str "0") = some 0 := by decide

/-- JumpLineEmitsItsWord, at both ends of the range. -/
theorem witness_JumpLineEmitsItsWord :
    refState.Tables Codes.ref ∧ parseNumeral (str "0") = some 0 ∧
    parseNumeral (str "4095") = some 4095 ∧ parseNumeral (str "0b111111111111") = some 4095 := by
  decide

/-- WrongTokenCountTakesArityError: one too few, one too many, none. -/
theorem witness_WrongTokenCountTakesArityError :
    refState.Tables Codes.ref ∧ [str "r1", str "r2"].length ≠ 3 ∧
    [str "r1", str "r2", str "r3", str "r4"].length ≠ 3 ∧ ([] : List Tok).length ≠ 1 ∧
    [str "1", str "2"].length ≠ 1 := by decide

/-- RTypeLineReportsItsFirstBadRegister, for a bad token in each position. -/
theorem witness_RTypeLineReportsItsFirstBadRegister :
    refState.Tables Codes.ref ∧
    [str "r8", str "r9", str "R1"].find? (fun t => (lookupReg regTabRows t).isNone)
      = some (str "r8") ∧
    [str "r2", str "r9", str "R1"].find? (fun t => (lookupReg regTabRows t).isNone)
      = some (str "r9") ∧
    [str "r2", str "r3", str "R1"].find? (fun t => (lookupReg regTabRows t).isNone)
      = some (str "R1") := by decide

/-- ITypeLineReportsItsFirstBadRegister, for a bad token in each position. -/
theorem witness_ITypeLineReportsItsFirstBadRegister :
    refState.Tables Codes.ref ∧
    [str "r8", str "r9"].find? (fun t => (lookupReg regTabRows t).isNone) = some (str "r8") ∧
    [str "r1", str "r9"].find? (fun t => (lookupReg regTabRows t).isNone) = some (str "r9") := by
  decide

/-- MalformedNumeralIsReported -/
theorem witness_MalformedNumeralIsReported :
    refState.Tables Codes.ref ∧ parseNumeral (str "0b") = none ∧
    (lookupReg regTabRows (str "r1")).isSome ∧ (lookupReg regTabRows (str "r2")).isSome := by decide

/-- OutOfRangeNumeralIsReportedWithItsBound, each clause at the first value beyond its bound. -/
theorem witness_OutOfRangeNumeralIsReportedWithItsBound :
    refState.Tables Codes.ref ∧ (lookupReg regTabRows (str "r1")).isSome ∧
    parseNumeral (str "256") = some 256 ∧ parseNumeral (str "-257") = some (-257) ∧
    parseNumeral (str "-1") = some (-1) ∧ parseNumeral (str "4096") = some 4096 := by decide

/-- TakenErrorIsOneOfItsShape: an instruction that takes an error. -/
theorem witness_TakenErrorIsOneOfItsShape :
    refState.Tables Codes.ref ∧
    exec (.jump (str "jump -1") [str "-1"]) refState
      = .next (refState.plusError (rangeEvent (str "jump -1") (str "-1") 0)) := ⟨by decide, rfl⟩

/-- InstructionEmitsExactlyTheEncodersWord: an instruction of each kind. -/
theorem witness_InstructionEmitsExactlyTheEncodersWord :
    refState.Tables Codes.ref ∧ (Instr.jump (str "jump 1") [str "1"]).WellFormed = true ∧
    (Instr.jump (str "jump r1") [str "r1"]).WellFormed = false := by decide

/-- RoundTripLawsHold: two numerals of one value, in either field. -/
theorem witness_RoundTripLawsHold :
    parseNumeral (str "0b00001010") = some 10 ∧ parseNumeral (str "10") = some 10 := by decide

/-- WordTextIsABijection: a string of nineteen such characters. -/
theorem witness_WordTextIsABijection :
    (str "1111000000000001010").length = 19 ∧
    ∀ ch ∈ str "1111000000000001010", ch = 0x30#8 ∨ ch = 0x31#8 := by decide

/-- The pieces of `AdD r1, , r2,,` and a tab: a token as it stands, one with its comma, a lone comma, a
token that keeps one of two commas. -/
def samplePieces : List Piece :=
  [⟨str "AdD", false, str " "⟩, ⟨str "r1", true, str " "⟩, ⟨[], true, str " "⟩,
    ⟨str "r2,", true, str "\t"⟩]

/-- TokenizerReadsEveryLayout, a lone comma as the first piece too, and BlankAndCommentLinesHaveNoTokens. -/
theorem witness_TokenizerReadsEveryLayout :
    (str " \t").all isWs = true ∧ (samplePieces.all Piece.ok) = true ∧
    (str "AdD").head? ≠ some 0x3B#8 ∧ (str "note").all (fun ch => !isWs ch) = true ∧
    startsBlank [] = true ∧ startsBlank (str " x") = true ∧
    samplePieces.flatMap Piece.text = str "AdD r1, , r2,,\t" ∧
    Piece.ok ⟨[], true, str " "⟩ = true ∧ ([] : Tok).head? ≠ some 0x3B#8 := by decide

/-- The premise Separate of the decoding obligations holds of REF. -/
theorem witness_codes_separate : Codes.ref.Separate := by decide

/-- DecodeOfEncodeIsTheInstruction: operands of each shape. -/
theorem witness_DecodeOfEncodeIsTheInstruction :
    Codes.ref.Separate ∧ fieldsShape (.r 1 2 3) = mnemonicShape .sub ∧
    fieldsShape (.i 7 0 256) = mnemonicShape .beq ∧ fieldsShape (.j 4095) = mnemonicShape .jump := by
  decide

/-- DecodeOfEncodeIsTheCanonicalSpelling: a line in another spelling. -/
theorem witness_DecodeOfEncodeIsTheCanonicalSpelling :
    Codes.ref.Separate ∧
    (Instr.addi (str "ADDI r1 r2 007") [str "r1", str "r2", str "007"]).WellFormed = true ∧
    canonical (.addi (str "ADDI r1 r2 007") [str "r1", str "r2", str "007"])
      = .addi (str "addi r1, r2, 7") [str "r1", str "r2", str "7"] := by decide

/-- EncodeOfDecodeIsTheWord: a word that decodes, and its encoding. -/
theorem witness_EncodeOfDecodeIsTheWord :
    decode Codes.ref 0x3A3FD#19
      = some (.beq (str "beq r1, r2, -3") [str "r1", str "r2", str "-3"]) ∧
    encode Codes.ref (.beq (str "beq r1, r2, -3") [str "r1", str "r2", str "-3"])
      = some 0x3A3FD#19 := by decide

/-- StepRunsTheInstructionItReads -/
theorem witness_StepRunsTheInstructionItReads :
    let s := presented [.line (str "JUMP 7")]
    s.pending = .line (str "JUMP 7") :: [] ∧ s.started = true ∧ s.halt = false ∧
    s.fits (str "JUMP 7") = true ∧ tokenize (str "JUMP 7") = str "jump" :: [str "7"] ∧
    lookupOp s.optab (lower (str "jump")) = some (.jump, .j) := by decide

/-- PresentedTableWordRunsNext, at the reset state itself. -/
theorem witness_PresentedTableWordRunsNext :
    State.reset.Tables Config.codes ∧ State.reset.Unbounded ∧
    decodeTableWord 19 0x7800A = some (.jump (str "jump 10") [str "10"]) :=
  ⟨⟨rfl, rfl⟩, by decide, by decide⟩

/-- LineStepFollowsLineResult, SkippedLineLeavesNoTrace and UnknownMnemonicIsReported. -/
theorem witness_line_results :
    refState.Tables Codes.ref ∧ (presented [.line (str "foo")]).Unbounded ∧
    (presented [.line (str "foo")]).started = true ∧ (presented [.line (str "foo")]).halt = false ∧
    tokenize (str "foo") = str "foo" :: [] ∧ (allMnemonics.all fun m => str "foo" ≠ mnemonicName m) ∧
    (presented [.line (str "#")]).fits (str "#") = true ∧ tokenize (str "#") = [] := by decide

/-- LineResultIgnoresTheHistory: one line after two histories. -/
theorem witness_LineResultIgnoresTheHistory :
    let s1 := presented [.line (str "jump 1")]
    let s2 := { presented [.line (str "jump 1"), .srcFail] with out := [0#19, 5#19], results := [.skip] }
    s1.regtab = s2.regtab ∧ s1.optab = s2.optab ∧ s1.Unbounded ∧ s2.Unbounded ∧
    s1.started = true ∧ s2.started = true ∧ s1.halt = false ∧ s2.halt = false := by decide

/-- HaltedBlockIgnoresLinesUntilReset: a halted state in which a RESET clears HALT. -/
theorem witness_HaltedBlockIgnoresLinesUntilReset :
    let s := { presented [.line (str "foo")] with halt := true }
    s.halt = true ∧ s.started = true ∧ s.pending = .line (str "foo") :: [] ∧
    ((nextOf (step { presented [.reset] with halt := true })).map (·.halt)) = some false := by decide

/-- SourceFailureHaltsOnce: both clauses. -/
theorem witness_SourceFailureHaltsOnce :
    (presented [.srcFail]).started = true ∧ (presented [.srcFail]).halt = false ∧
    ({ presented [.srcFail] with halt := true } : State).halt = true := by decide

/-- InputBeforeTheFirstResetIsStuck: the two inputs that have no step. -/
theorem witness_InputBeforeTheFirstResetIsStuck :
    ({ presented [.srcFail] with started := false } : State).started = false ∧
    Input.srcFail ≠ .reset ∧ Input.line [] ≠ .reset := by decide

/-- LineBeyondABoundIsRefused: a line one character beyond LINE_MAX; one token beyond TOK_MAX with no
LINE_MAX, and with both bounds set and the line exactly as long as LINE_MAX allows. -/
theorem witness_LineBeyondABoundIsRefused :
    let s := { presented [.line (str "add r1")] with lineMax := some 5 }
    let t := { presented [.line (str "add r1")] with tokMax := some 1 }
    let u := { presented [.line (str "add r1")] with lineMax := some 6, tokMax := some 1 }
    s.started = true ∧ s.halt = false ∧ s.lineMax = some 5 ∧ 5 < (str "add r1").length ∧
    withinBound t.lineMax (str "add r1").length = true ∧ t.tokMax = some 1 ∧
    withinBound u.lineMax (str "add r1").length = true ∧ u.tokMax = some 1 ∧
    1 < (tokenize (str "add r1")).length := by decide

/-- The zero word is of the encoder's image, whatever the codes. -/
theorem zero_inImage (c : Codes) : InImage c 0#19 :=
  .inl ⟨0#3, by simp [Codes.fns, fnAdd], 0, 0, 0, by decide⟩

/-- The invariant holds of a state with an input presented. -/
theorem inv_presented (inputs : List Input) : Inv Codes.ref (presented inputs) := by
  refine ⟨⟨rfl, rfl⟩, rfl, rfl, rfl, rfl, by simp [presented, refState, State.reset], ?_, ?_⟩
  · intro w hw
    simp only [presented, refState, State.reset, List.mem_singleton] at hw
    subst hw
    exact zero_inImage _
  · simp [presented, refState, State.reset]

/-- EveryStepKeepsTheInvariant, EveryRunKeepsTheZeroWordFirst and NoStepStopsAfterReset: a state of the
invariant that takes a step. -/
theorem witness_EveryStepKeepsTheInvariant :
    Inv Codes.ref (presented [.line (str "jump 1")]) ∧
    (presented [.line (str "jump 1")]).Unbounded ∧
    step (presented [.line (str "jump 1")]) = .next (refState.plusWord 0x78001#19) ∧
    runSteps 1 (presented [.line (str "jump 1")]) = .next (refState.plusWord 0x78001#19) :=
  ⟨inv_presented _, by decide, rfl, rfl⟩

/-- RunEndsWithTheWordsAndErrorsOfItsLines: a run of one line, and one cut short (P6). -/
theorem witness_RunEndsWithTheWordsAndErrorsOfItsLines :
    let s := presented [.reset, .line (str "jump 1")]
    let t := presented [.reset, .line (str "jump 1"), .srcFail, .line (str "jump 2")]
    s.Tables Codes.ref ∧ s.Unbounded ∧
    s.pending = .reset :: [str "jump 1"].map Input.line ++ [] ∧
    t.pending = .reset :: [str "jump 1"].map Input.line ++ .srcFail :: [str "jump 2"].map Input.line := by
  decide

/-- ITypeOpcodesAreDistinctAlongEveryRun: a run, and an opcode looked up before and after it. -/
theorem witness_ITypeOpcodesAreDistinctAlongEveryRun :
    refState.Tables Codes.ref ∧
    runSteps 1 (presented [.line (str "jump 1")]) = .next (refState.plusWord 0x78001#19) ∧
    lookupOp refState.optab (str "beq") = some (.beq, .i 0b0111#4) := ⟨by decide, rfl, by decide⟩

end Sys2Proof.Tests
end

section
/-! PROOFS. The statements about the state: the two tables (spec/10_state.md R12, R13), that no step writes
them (R14), and that a line's result does not depend on the history (R20). -/

namespace Sys2Proof.Machine

/-- Index and numeral suffix of every row of REGTAB agree (R12). -/
theorem regTabRows_name : ∀ row ∈ regTabRows, row.1 = regName row.2 := by decide

/-- A token that finds an index is the canonical name of that register. -/
theorem lookupReg_some {t : Tok} {i : BitVec 3} (h : lookupReg regTabRows t = some i) :
    t = regName i := by
  obtain ⟨row, hfind, rfl⟩ := Option.map_eq_some_iff.mp h
  have hkey : row.1 = t := by simpa using List.find?_some hfind
  exact hkey.symm.trans (regTabRows_name row (List.mem_of_find?_eq_some hfind))

/-- The numeral suffix of a register's name is the digit of its index (R12). -/
theorem regName_eq (i : BitVec 3) : regName i = [0x72#8, BitVec.ofNat 8 (0x30 + i.toNat)] := by
  revert i; decide

/-- Settles O3: the row that a token finds carries the token as its name, and each name finds its own row. -/
theorem registerNamesAreExactlyTheEightOfTheTable :
    Obligations.RegisterNamesAreExactlyTheEightOfTheTable := by
  intro t i
  rw [← regName_eq]
  constructor
  · exact lookupReg_some
  · rintro rfl
    exact lookupReg_regName i

/-- Settles O4: the rows are read off the definition; a look-up by name is exact in both directions. -/
theorem mnemonicTableHoldsExactlyItsFourteenRows :
    Obligations.MnemonicTableHoldsExactlyItsFourteenRows := by
  intro c
  refine ⟨rfl, fun t m e => ⟨lookupOp_some, ?_⟩⟩
  rintro ⟨rfl, rfl⟩
  exact lookupOp_name c m

@[simp] theorem srcFail_regtab (s : State) : (srcFail s).regtab = s.regtab := by
  unfold srcFail
  split <;> rfl

@[simp] theorem srcFail_optab (s : State) : (srcFail s).optab = s.optab := by
  unfold srcFail
  split <;> rfl

/-- Settles O5, input by input: a line step only appends its result, and neither the reset sequence nor a
source failure touches the tables. -/
theorem noStepWritesTheTables : Obligations.NoStepWritesTheTables := by
  intro s t h
  obtain ⟨-, rfl⟩ | ⟨rest, -, rfl⟩ | ⟨line, rest, -, -, hline⟩ | ⟨rest, -, -, rfl⟩ := step_cases h
  case inl => exact ⟨rfl, rfl⟩
  case inr.inl => exact ⟨resetBlock_regtab _, resetBlock_optab _⟩
  case inr.inr.inl =>
    obtain ⟨r, -, -, rfl⟩ := lineStep_frame hline
    exact ⟨rfl, rfl⟩
  case inr.inr.inr => exact ⟨srcFail_regtab _, srcFail_optab _⟩

/-- Without bounds every line lies within them (R5). -/
theorem fits_of_unbounded {s : State} (h : s.Unbounded) (line : Str) : s.fits line = true := by
  obtain ⟨hline, htok⟩ := h
  simp [State.fits, withinBound, hline, htok]

/-- A line that is presented to a started block is handled by the line step. -/
theorem step_line {s : State} {line : Str} {rest : List Input} (hs : s.started = true)
    (hp : s.pending = .line line :: rest) :
    step s = lineStep line { s with pending := rest } := by
  simp [step, takeInput, hp, hs]

/-- Settling a line appends one result, which the state has no part in. -/
theorem settle_appends (line : Str) (a : Except EncError Word) :
    ∃ r : Result, ∀ s : State, settle line a s = s.afterResult s.pending r := by
  cases a with
  | ok w => exact ⟨.word w, emitWord_eq w⟩
  | error e => exact ⟨.error (eventOf line e), takeError_eq line e⟩

/-- What the encoder answers on a mnemonic's operands, as a function of the two tables alone, whatever rows
they hold: the mnemonic's own column of OPTAB, then its shape's encoder (R100, R110, R120). -/
def tableAnswer (rt : RegTab) (ot : OpTab) (mn : Mnemonic) (args : List Tok) : Except EncError Word :=
  match mnemonicShape mn with
  | .r => do encodeR rt (← rowFn ot mn) args
  | .i => do encodeI rt (← rowOpcode ot mn) args
  | .j => do rowJump ot mn; encodeJ args

/-- An instruction reads nothing of the state but the two tables: it settles its line with their answer. -/
theorem exec_eq_tableAnswer (i : Instr) (s : State) :
    exec i s = .next (settle i.line (tableAnswer s.regtab s.optab i.mnemonic i.args) s) := by
  cases i <;> rfl

/-- A line step that is neither ignored nor refused does what the line is read as. -/
theorem lineStep_of_fits {line : Str} {s : State} (hh : s.halt = false) (hf : s.fits line = true) :
    lineStep line s = match fetchLine s.optab line with
      | .nothing => .next (skipLine s)
      | .instr i => exec i s
      | .unknown t => .next (settle line (.error (.unknownInstruction t)) s) := by
  simp only [State.fits, Bool.and_eq_true] at hf
  obtain ⟨hline, htok⟩ := hf
  cases hfetch : fetchLine s.optab line <;> simp [lineStep, hh, hline, htok, hfetch]

/-- A line's result is a function of the tables and the line (R20, R80): every block that is not halted and
accepts the line appends it. -/
theorem lineStep_reads_tables (rt : RegTab) (ot : OpTab) (line : Str) :
    ∃ r : Result, ∀ s : State, s.regtab = rt → s.optab = ot → s.halt = false →
      s.fits line = true → lineStep line s = .next (s.afterResult s.pending r) := by
  cases hfetch : fetchLine ot line with
  | nothing =>
    refine ⟨.skip, fun s _ ho hh hf => ?_⟩
    rw [lineStep_of_fits hh hf, ho, hfetch, ← skipLine_eq]
  | instr i =>
    obtain ⟨r, hsettle⟩ := settle_appends i.line (tableAnswer rt ot i.mnemonic i.args)
    refine ⟨r, fun s hr ho hh hf => ?_⟩
    rw [lineStep_of_fits hh hf, ho, hfetch, ← hsettle, ← hr, ← ho, ← exec_eq_tableAnswer]
  | unknown t =>
    obtain ⟨r, hsettle⟩ := settle_appends line (.error (.unknownInstruction t))
    refine ⟨r, fun s _ ho hh hf => ?_⟩
    rw [lineStep_of_fits hh hf, ho, hfetch, ← hsettle]

/-- Settles O33: both states append the result that their common tables give the line. -/
theorem lineResultIgnoresTheHistory : Obligations.LineResultIgnoresTheHistory := by
  intro s1 s2 line rest1 rest2 hreg hop hu1 hu2 hs1 hs2 hh1 hh2 hp1 hp2
  obtain ⟨r, hr⟩ := lineStep_reads_tables s1.regtab s1.optab line
  refine ⟨r, ?_, ?_⟩
  · rw [step_line hs1 hp1]
    exact hr _ rfl rfl hh1 (fits_of_unbounded hu1 line)
  · rw [step_line hs2 hp2]
    exact hr _ hreg.symm hop.symm hh2 (fits_of_unbounded hu2 line)

end Sys2Proof.Machine
end

section
/-! PROOFS. The statement about one line step's appends (spec/20_memory.md R38). -/

namespace Sys2Proof.Machine

/-- Only a block that has been reset goes on with a line (R23, U10). -/
theorem started_of_step_line {s t : State} {line : Str} {rest : List Input}
    (hp : s.pending = .line line :: rest) (h : step s = .next t) : s.started = true := by
  by_contra hs
  simp [step, takeInput, hp, hs] at h

/-- What the line step does (`lineStep_frame`), seen from the state that still holds the line: one result,
never FATAL, IGNORED exactly while HALT is 1, and nothing but its append. -/
theorem step_line_frame {s t : State} {line : Str} {rest : List Input}
    (hp : s.pending = .line line :: rest) (h : step s = .next t) :
    ∃ r : Result, r ≠ .fatal ∧ (r ≠ .ignored ↔ s.halt = false) ∧ t = s.afterResult rest r := by
  rw [step_line (started_of_step_line hp h) hp] at h
  exact lineStep_frame h

/-- Settles O34: a line step does nothing but append its one result, and each kind of result holds at most
one word or one event. -/
theorem lineStepAppendsAtMostOnce : Obligations.LineStepAppendsAtMostOnce := by
  intro s t line rest hp h
  obtain ⟨r, hfatal, -, rfl⟩ := step_line_frame hp h
  refine ⟨r, rfl, ?_⟩
  cases r with
  | word w => exact ⟨rfl, List.append_nil s.err⟩
  | error e => exact ⟨List.append_nil s.out, rfl⟩
  | skip => exact ⟨List.append_nil s.out, List.append_nil s.err⟩
  | ignored => exact ⟨List.append_nil s.out, List.append_nil s.err⟩
  | fatal => exact hfatal rfl

end Sys2Proof.Machine
end

section
/-! PROOFS. The words that well-formed lines emit (spec/30_encoding.md R51, R52, R53), and the immediate
field of an I-type word (R56). -/

namespace Sys2Proof.Machine

/-- With the tables in place, an instruction that has a word appends it to OUT, and WORD to the results. -/
theorem exec_of_encode {c : Codes} {s : State} {i : Instr} {w : Word} (ht : s.Tables c)
    (h : encode c i = some w) : exec i s = .next (s.plusWord w) := by
  obtain ⟨hreg, hop⟩ := ht
  obtain ⟨f, hf, hw⟩ := Option.bind_eq_some_iff.mp h
  rw [← entryShape_opEntry c] at hf
  have hrow : encodeRow s.regtab (opEntry c i.mnemonic) i.args = .ok w := by
    rw [hreg]
    exact encodeRow_eq_ok.mpr ⟨f, hf, hw⟩
  calc exec i s
      = exec (i.mnemonic.instr i.line i.args) s := by rw [instr_eta]
    _ = .next (settle i.line (.ok w) s) := by rw [exec_eq hop, hrow]
    _ = .next (s.plusWord w) := rfl

section Encode

variable {c : Codes} {m : Mnemonic} (line : Str) {t1 t2 t3 : Tok} {r1 r2 r3 : BitVec 3} {v : Int}

/-- R51: an R-type row on three register names; the fields hold token 2, token 3, token 1. -/
theorem encode_rType {fn : BitVec 3} (hm : opEntry c m = .r fn)
    (h1 : lookupReg regTabRows t1 = some r1) (h2 : lookupReg regTabRows t2 = some r2)
    (h3 : lookupReg regTabRows t3 = some r3) :
    encode c (m.instr line [t1, t2, t3]) = some (packR fn r2 r3 r1) := by
  have hshape : mnemonicShape m = .r := by rw [← entryShape_opEntry c, hm, entryShape]
  simp [encode, hm, hshape, resolve, h1, h2, h3, packFields]

/-- R52: an I-type row on two register names and a numeral in range; the fields hold token 2, token 1, the
immediate. -/
theorem encode_iType {opc : BitVec 4} (hm : opEntry c m = .i opc)
    (h1 : lookupReg regTabRows t1 = some r1) (h2 : lookupReg regTabRows t2 = some r2)
    (h3 : parseNumeral t3 = some v) (hlo : -256 ≤ v) (hhi : v ≤ 255) :
    encode c (m.instr line [t1, t2, t3]) = some (packI opc r2 r1 (immField v)) := by
  have hshape : mnemonicShape m = .i := by rw [← entryShape_opEntry c, hm, entryShape]
  have hnum : numeralIn .i t3 = some v := by
    simp [numeralIn, h3, numRange, immMin, immMax, hlo, hhi]
  simp [encode, hm, hshape, resolve, h1, h2, hnum, packFields]

/-- R53: the jump row on a numeral in range. -/
theorem encode_jump (h1 : parseNumeral t1 = some v) (hlo : 0 ≤ v) (hhi : v ≤ 4095) :
    encode c (.jump line [t1]) = some (packJ (tgtField v)) := by
  have hnum : numeralIn .j t1 = some v := by
    simp [numeralIn, h1, numRange, tgtMin, tgtMax, hlo, hhi]
  simp [encode, Instr.mnemonic, Instr.args, mnemonicShape, opEntry, resolve, hnum, packFields]

end Encode

/-- The spec's `bits9(v mod 512)` is Lean's two's complement (R56). -/
theorem immField_eq_ofInt (v : Int) : immField v = BitVec.ofInt 9 v := by
  apply BitVec.eq_of_toNat_eq
  rw [immField, BitVec.toNat_ofNat, BitVec.toNat_ofInt]
  omega

/-- On a number, `bits12` is the twelve low bits (R57). -/
theorem tgtField_eq_ofInt {v : Int} (h : 0 ≤ v) : tgtField v = BitVec.ofInt 12 v := by
  apply BitVec.eq_of_toNat_eq
  rw [tgtField, BitVec.toNat_ofNat, BitVec.toNat_ofInt]
  omega

/-- The field of an in-range immediate, read without a sign (R56). -/
theorem immField_toNat {v : Int} (hlo : -256 ≤ v) (hhi : v ≤ 255) :
    ((immField v).toNat : Int) = if 0 ≤ v then v else 512 + v := by
  rw [immField, BitVec.toNat_ofNat]
  split <;> omega

/-- The field's sign bit is the sign of an in-range immediate (R56). -/
theorem immField_msb {v : Int} (hlo : -256 ≤ v) (hhi : v ≤ 255) :
    (immField v).msb = decide (v < 0) := by
  rw [BitVec.msb_eq_toInt, immField_toInt hlo hhi]

/-- A numeral out of range packs nothing: the field encoder raises a RangeError (R88). -/
theorem imm9_of_out_of_range {t : Tok} {v : Int} (h : parseNumeral t = some v)
    (hv : v < -256 ∨ 255 < v) : ∃ bound, imm9 t = .error (.range t bound) := by
  rw [imm9_of_some h]
  by_cases hhi : v > immMax
  · exact ⟨immMax, if_pos hhi⟩
  · have hlo : v < immMin := hv.resolve_right hhi
    exact ⟨immMin, by rw [if_neg hhi, if_pos hlo]⟩

/-- The cell of an I-type mnemonic holds an opcode (R13). -/
theorem exists_opEntry_of_iType (c : Codes) {m : Mnemonic} (h : mnemonicShape m = .i) :
    ∃ opc, opEntry c m = .i opc := by
  rw [← entryShape_opEntry c] at h
  cases he : opEntry c m with
  | i opc => exact ⟨opc, rfl⟩
  | r fn => simp [he, entryShape] at h
  | j => simp [he, entryShape] at h

/-- The seven I-type instructions of a line are its I-type mnemonics (R52). -/
theorem iType_of_mem {i : Instr} {line : Str} {args : List Tok}
    (h : i ∈ [Instr.addi line args, .andi line args, .lw line args, .lea line args, .sw line args,
      .pcm line args, .beq line args]) :
    ∃ m : Mnemonic, mnemonicShape m = .i ∧ i = m.instr line args := by
  have hmap : i ∈ [Mnemonic.addi, .andi, .lw, .lea, .sw, .pcm, .beq].map (·.instr line args) := h
  obtain ⟨m, hmem, rfl⟩ := List.mem_map.mp hmap
  have hshape : ∀ m ∈ [Mnemonic.addi, .andi, .lw, .lea, .sw, .pcm, .beq], mnemonicShape m = .i := by
    decide
  exact ⟨m, hshape m hmem, rfl⟩

/-- Settles O7: the word of each mnemonic's row, with the function code of its cell. -/
theorem rTypeLinesEmitTheirWord : Obligations.RTypeLinesEmitTheirWord := by
  intro c s line t1 t2 t3 r1 r2 r3 ht h1 h2 h3
  have emits (m : Mnemonic) {fn : BitVec 3} (hm : opEntry c m = .r fn) :
      exec (m.instr line [t1, t2, t3]) s = .next (s.plusWord (packR fn r2 r3 r1)) :=
    exec_of_encode ht (encode_rType line hm h1 h2 h3)
  exact ⟨emits .add rfl, emits .sub rfl, emits .and rfl, emits .or rfl, emits .slt rfl, emits .mvz rfl⟩

/-- Settles O8: the word of each mnemonic's row, with the opcode of its cell. -/
theorem iTypeLinesEmitTheirWord : Obligations.ITypeLinesEmitTheirWord := by
  intro c s line t1 t2 t3 r1 r2 v ht h1 h2 h3 hlo hhi
  have emits (m : Mnemonic) {opc : BitVec 4} (hm : opEntry c m = .i opc) :
      exec (m.instr line [t1, t2, t3]) s
        = .next (s.plusWord (packI opc r2 r1 (BitVec.ofInt 9 v))) := by
    rw [← immField_eq_ofInt]
    exact exec_of_encode ht (encode_iType line hm h1 h2 h3 hlo hhi)
  exact ⟨emits .addi rfl, emits .andi rfl, emits .lw rfl, emits .lea rfl, emits .sw rfl,
    emits .pcm rfl, emits .beq rfl⟩

/-- Settles O9: the word of the jump row. -/
theorem jumpLineEmitsItsWord : Obligations.JumpLineEmitsItsWord := by
  intro c s line t1 v ht h1 hlo hhi
  rw [← tgtField_eq_ofInt hlo]
  exact exec_of_encode ht (encode_jump line h1 hlo hhi)

/-- Settles O18: the three readings of the field, no field out of range, and the field at the low end of
every I-type word. -/
theorem immediateFieldIsTwosComplement : Obligations.ImmediateFieldIsTwosComplement := by
  refine ⟨fun v hlo hhi => ⟨immField_toNat hlo hhi, immField_toInt hlo hhi, immField_msb hlo hhi⟩,
    fun t v => imm9_of_out_of_range, ?_⟩
  intro c s line t1 t2 t3 v ht h1 h2 h3 hlo hhi i hi
  obtain ⟨r1, h1⟩ := Option.isSome_iff_exists.mp h1
  obtain ⟨r2, h2⟩ := Option.isSome_iff_exists.mp h2
  obtain ⟨m, hshape, rfl⟩ := iType_of_mem hi
  obtain ⟨opc, hm⟩ := exists_opEntry_of_iType c hshape
  exact ⟨packI opc r2 r1 (immField v), exec_of_encode ht (encode_iType line hm h1 h2 h3 hlo hhi),
    fieldImm_packI opc r2 r1 (immField v)⟩

end Sys2Proof.Machine
end

section
/-! PROOFS. The round-trip laws (spec/40_common_and_operands.md R91), and the line step as `line_result` and
an append (R80). -/

namespace Sys2Proof.Machine

/-- A numeral in range packs its value into the immediate field (R88). -/
theorem imm9_of_in_range {t : Tok} {v : Int} (h : parseNumeral t = some v) (hlo : -256 ≤ v)
    (hhi : v ≤ 255) : imm9 t = .ok (immField v) := by
  have hmax : ¬ v > immMax := not_lt_of_ge hhi
  have hmin : ¬ v < immMin := not_lt_of_ge hlo
  rw [imm9_of_some h, if_neg hmax, if_neg hmin]

/-- A numeral in range packs its value into the target field (R89). -/
theorem tgt12_of_in_range {t : Tok} {v : Int} (h : parseNumeral t = some v) (hlo : 0 ≤ v)
    (hhi : v ≤ 4095) : tgt12 t = .ok (tgtField v) := by
  have hmin : ¬ v < tgtMin := not_lt_of_ge hlo
  have hmax : ¬ v > tgtMax := not_lt_of_ge hhi
  rw [tgt12_of_some h, if_neg hmin, if_neg hmax]

@[simp] theorem wordText_length (w : Word) : (wordText w).length = 19 := by
  rw [wordText, List.length_map, List.length_range]

theorem bitChar_eq_zero_or_one (b : Bool) : bitChar b = 0x30#8 ∨ bitChar b = 0x31#8 := by
  cases b
  · exact .inl rfl
  · exact .inr rfl

/-- Each character of a word's text is that of one of its bits (R35). -/
theorem eq_zero_or_one_of_mem_wordText {w : Word} {ch : Chr} (h : ch ∈ wordText w) :
    ch = 0x30#8 ∨ ch = 0x31#8 := by
  obtain ⟨i, -, rfl⟩ := List.mem_map.mp h
  exact bitChar_eq_zero_or_one _

/-- Settles O19: laws (b), (c) and (e) are that a field in range depends on the numeral's value alone, the
first two with the numeral that `dec` writes and the field read back. -/
theorem roundTripLawsHold : Obligations.RoundTripLawsHold := by
  refine ⟨?regs, ?imms, ?tgts, ?text, ?alike⟩
  case regs =>
    intro i
    rw [← regName_eq]
    exact reg_of_some (lookupReg_regName i)
  case imms =>
    intro v hlo hhi
    exact ⟨immField v, imm9_of_in_range (parseNumeral_decNumeral v) hlo hhi, immField_toInt hlo hhi⟩
  case tgts =>
    intro v hlo hhi
    exact ⟨tgtField v, tgt12_of_in_range (parseNumeral_decNumeral v) hlo hhi, tgtField_toNat hlo hhi⟩
  case text =>
    intro w
    exact ⟨wordText_length w, fun _ => eq_zero_or_one_of_mem_wordText⟩
  case alike =>
    intro t t' v ht ht'
    refine ⟨fun hlo hhi => ?_, fun hlo hhi => ?_⟩
    · rw [imm9_of_in_range ht hlo hhi, imm9_of_in_range ht' hlo hhi]
    · rw [tgt12_of_in_range ht hlo hhi, tgt12_of_in_range ht' hlo hhi]

/-- On a line with tokens `encode` answers a word or an error, never a skip (R81). -/
theorem encodeTokens_cons (rt : RegTab) (ot : OpTab) (t : Tok) (args : List Tok) :
    (∃ w, encodeTokens rt ot (t :: args) = .ok (some w)) ∨
      ∃ e, encodeTokens rt ot (t :: args) = .error e := by
  cases hc : classify ot t with
  | error e => exact .inr ⟨e, by simp [encodeTokens, hc, bind, Except.bind]⟩
  | ok row =>
    cases hw : encodeRow rt row.2 args with
    | error e => exact .inr ⟨e, by simp [encodeTokens, hc, hw, bind, Except.bind]⟩
    | ok w => exact .inl ⟨w, by simp [encodeTokens, hc, hw, bind, Except.bind, pure, Except.pure]⟩

/-- `line_result` case by case (R80): SKIP on a line of no tokens, else what `encode` answers on its tokens,
an error with the raw line. -/
theorem lineResult_cases (rt : RegTab) (ot : OpTab) (line : Str) :
    (tokenize line = [] ∧ lineResult rt ot line = .skip) ∨
      (tokenize line ≠ [] ∧
        ((∃ w, encodeTokens rt ot (tokenize line) = .ok (some w) ∧ lineResult rt ot line = .word w) ∨
          ∃ e, encodeTokens rt ot (tokenize line) = .error e ∧
            lineResult rt ot line = .error (eventOf line e))) := by
  cases htok : tokenize line with
  | nil => exact .inl ⟨rfl, by simp [lineResult, htok, encodeTokens]⟩
  | cons t args =>
    refine .inr ⟨List.cons_ne_nil t args, ?_⟩
    rcases encodeTokens_cons rt ot t args with ⟨w, hw⟩ | ⟨e, he⟩
    · exact .inl ⟨w, hw, by simp [lineResult, htok, hw]⟩
    · exact .inr ⟨e, he, by simp [lineResult, htok, he]⟩

/-- A line to a halted block is ignored, whatever its length (R147). -/
theorem lineStep_of_halt {line : Str} {s : State} (h : s.halt = true) :
    lineStep line s = .next (s.afterResult s.pending .ignored) := by
  rw [lineStep, if_pos h, ignoreInput_eq]

/-- Settles O32: the step on a presented line is the line step, which a halted block answers with IGNORED and
any other with `line_result`. -/
theorem lineStepFollowsLineResult : Obligations.LineStepFollowsLineResult := by
  intro c s line rest ht hu hs hp
  refine ⟨?_, lineResult_cases regTabRows (opTabRows c) line⟩
  rw [step_line hs hp]
  by_cases hh : s.halt = true
  · rw [if_pos hh]
    exact lineStep_of_halt hh
  · rw [if_neg hh]
    exact lineStep_eq_lineResult ht (Bool.eq_false_of_not_eq_true hh) (fits_of_unbounded hu line)

end Sys2Proof.Machine
end

section
/-! PROOFS. The statement about a line of no tokens (spec/60_exceptions.md R149). -/

namespace Sys2Proof.Machine

/-- A line of no tokens is read as nothing, whatever OPTAB holds (R71). -/
theorem fetchLine_of_tokenize_nil (ot : OpTab) {line : Str} (h : tokenize line = []) :
    fetchLine ot line = .nothing := by
  simp only [fetchLine, h]

/-- A blank or comment line within the bounds appends the result SKIP and nothing else, whatever the tables
hold (R80, R149). -/
theorem lineStep_of_tokenize_nil {line : Str} {s : State} (hh : s.halt = false)
    (hf : s.fits line = true) (h : tokenize line = []) :
    lineStep line s = .next (skipLine s) := by
  rw [lineStep_of_fits hh hf, fetchLine_of_tokenize_nil s.optab h]

/-- Settles O36: the step is the line step on the state without the line, which skips it; SKIP's code is 0 by
the table of codes. -/
theorem skippedLineLeavesNoTrace : Obligations.SkippedLineLeavesNoTrace := by
  intro s line rest hp hs hh hf htok
  refine ⟨?step, rfl⟩
  case step =>
    rw [step_line hs hp]
    exact lineStep_of_tokenize_nil hh hf htok

end Sys2Proof.Machine
end

section
/-! PROOFS. The decoder and the encoder against each other (spec/30_encoding.md R58, R59, R61, R62): both
directions of the round trip, and the image of the encoder as the words of some row and operands. -/

namespace Sys2Proof.Machine

@[simp] theorem spell_mnemonic (m : Mnemonic) (f : Fields) : (spell m f).mnemonic = m :=
  instr_mnemonic m _ _

@[simp] theorem spell_line (m : Mnemonic) (f : Fields) :
    (spell m f).line = spellLine m (spellArgs f) :=
  instr_line m _ _

@[simp] theorem spell_args (m : Mnemonic) (f : Fields) : (spell m f).args = spellArgs f :=
  instr_args m _ _

/-- What a well-formed instruction's operands resolve to is packed into its word. -/
theorem encode_of_resolve {c : Codes} {i : Instr} {f : Fields}
    (h : resolve (mnemonicShape i.mnemonic) i.args = some f) :
    encode c i = packFields (opEntry c i.mnemonic) f := by
  rw [encode, h, Option.bind_some]

theorem canonical_of_resolve {i : Instr} {f : Fields}
    (h : resolve (mnemonicShape i.mnemonic) i.args = some f) :
    canonical i = spell i.mnemonic f := by
  simp only [canonical, h]

section Spelled

variable {m : Mnemonic} {f : Fields} (hf : fieldsShape f = mnemonicShape m)
include hf

/-- A canonical spelling resolves to the operands it spells (R65, R91). -/
theorem resolve_spell :
    resolve (mnemonicShape (spell m f).mnemonic) (spell m f).args = some f := by
  rw [spell_mnemonic, spell_args, ← hf]
  exact resolve_spellArgs f

theorem wellFormed_spell : (spell m f).WellFormed = true :=
  (wellFormed_iff_resolve _).mpr ⟨f, resolve_spell hf⟩

theorem canonical_spell : canonical (spell m f) = spell m f := by
  rw [canonical_of_resolve (resolve_spell hf), spell_mnemonic]

theorem encode_spell (c : Codes) : encode c (spell m f) = packFields (opEntry c m) f := by
  rw [encode_of_resolve (resolve_spell hf), spell_mnemonic]

/-- Operands of a mnemonic's shape pack into a word under every record of codes (R51, R52, R53). -/
theorem exists_packFields (c : Codes) : ∃ w, packFields (opEntry c m) f = some w := by
  rw [packFields_isSome, entryShape_opEntry, hf]

end Spelled

/-- Operands that pack into a mnemonic's cell have the mnemonic's shape. -/
theorem fieldsShape_of_packFields {c : Codes} {m : Mnemonic} {f : Fields} {w : Word}
    (h : packFields (opEntry c m) f = some w) : fieldsShape f = mnemonicShape m := by
  rw [← entryShape_opEntry c m]
  exact (packFields_isSome _ f).mp ⟨w, h⟩

/-- A decoded instruction is a canonical spelling of what the word's fields hold. -/
theorem decode_eq_some {c : Codes} {w : Word} {i : Instr} :
    decode c w = some i ↔ ∃ m f, decodeFields c w = some (m, f) ∧ spell m f = i := by
  simp only [decode, Option.map_eq_some_iff, Prod.exists]

/-- With separate codes, the packed word of a row decodes to the row and its operands, spelled. -/
theorem decode_of_packFields {c : Codes} (hc : c.Separate) {m : Mnemonic} {f : Fields} {w : Word}
    (h : packFields (opEntry c m) f = some w) : decode c w = some (spell m f) :=
  decode_eq_some.mpr ⟨m, f, decodeFields_of_packFields hc h, rfl⟩

/-- Settles O25: the canonical spelling resolves to its operands, and the decoder reads their packing back. -/
theorem decodeOfEncodeIsTheInstruction : Obligations.DecodeOfEncodeIsTheInstruction := by
  intro c m f hc hf
  obtain ⟨w, hw⟩ := exists_packFields hf c
  exact ⟨wellFormed_spell hf, w, (encode_spell hf c).trans hw, decode_of_packFields hc hw⟩

/-- Settles O26: an instruction and its canonical spelling resolve to the same operands, so they share the
word, and the word decodes to the spelling of those operands. -/
theorem decodeOfEncodeIsTheCanonicalSpelling : Obligations.DecodeOfEncodeIsTheCanonicalSpelling := by
  intro c i hc hwf
  obtain ⟨f, hres⟩ := (wellFormed_iff_resolve i).mp hwf
  have hf : fieldsShape f = mnemonicShape i.mnemonic := fieldsShape_of_resolve hres
  obtain ⟨w, hw⟩ := exists_packFields hf c
  rw [canonical_of_resolve hres, encode_spell hf, spell_mnemonic, encode_of_resolve hres]
  exact ⟨w, hw, decode_of_packFields hc hw, hw, rfl⟩

/-- Settles O27: the decoded fields pack back into the word, whatever the codes, and so have their row's
shape. -/
theorem encodeOfDecodeIsTheWord : Obligations.EncodeOfDecodeIsTheWord := by
  intro c w i h
  obtain ⟨m, f, hfields, rfl⟩ := decode_eq_some.mp h
  have hw : packFields (opEntry c m) f = some w := packFields_of_decodeFields hfields
  have hf : fieldsShape f = mnemonicShape m := fieldsShape_of_packFields hw
  exact ⟨wellFormed_spell hf, canonical_spell hf, (encode_spell hf c).trans hw⟩

/-- Each of the six function codes of R59 is that of an R-type row (R13). -/
theorem exists_opEntry_of_mem_fns {c : Codes} {fn : BitVec 3} (h : fn ∈ Codes.fns c) :
    ∃ m, opEntry c m = .r fn := by
  simp only [Codes.fns, Codes.openFns, List.mem_cons, List.not_mem_nil, or_false] at h
  obtain rfl | rfl | rfl | rfl | rfl | rfl := h
  exacts [⟨.add, rfl⟩, ⟨.sub, rfl⟩, ⟨.and, rfl⟩, ⟨.or, rfl⟩, ⟨.slt, rfl⟩, ⟨.mvz, rfl⟩]

/-- Each of the seven I-type opcodes is that of an I-type row (R13). -/
theorem exists_opEntry_of_mem_iOpcodes {c : Codes} {opc : BitVec 4} (h : opc ∈ c.iOpcodes) :
    ∃ m, opEntry c m = .i opc := by
  simp only [Codes.iOpcodes, List.mem_cons, List.not_mem_nil, or_false] at h
  obtain rfl | rfl | rfl | rfl | rfl | rfl | rfl := h
  exacts [⟨.addi, rfl⟩, ⟨.andi, rfl⟩, ⟨.lw, rfl⟩, ⟨.lea, rfl⟩, ⟨.sw, rfl⟩, ⟨.pcm, rfl⟩, ⟨.beq, rfl⟩]

/-- A row's encoder answers the packing of canonically spelled operands (R65). -/
theorem encodeRow_spellArgs {c : Codes} {m : Mnemonic} {f : Fields} {w : Word}
    (h : packFields (opEntry c m) f = some w) :
    encodeRow regTabRows (opEntry c m) (spellArgs f) = .ok w := by
  refine encodeRow_eq_ok.mpr ⟨f, ?_, h⟩
  rw [entryShape_opEntry, ← fieldsShape_of_packFields h]
  exact resolve_spellArgs f

/-- The three forms of R61 are the packings of some row with operands of its shape. -/
theorem inImage_iff_packFields {c : Codes} {w : Word} :
    InImage c w ↔ ∃ m f, packFields (opEntry c m) f = some w := by
  constructor
  · rintro (⟨fn, hfn, sa, sb, rd, rfl⟩ | ⟨opc, hopc, rb, ra, imm, rfl⟩ | ⟨tgt, rfl⟩)
    · obtain ⟨m, hm⟩ := exists_opEntry_of_mem_fns hfn
      exact ⟨m, .r rd sa sb, by rw [hm, packFields]⟩
    · obtain ⟨m, hm⟩ := exists_opEntry_of_mem_iOpcodes hopc
      exact ⟨m, .i ra rb imm, by rw [hm, packFields]⟩
    · exact ⟨.jump, .j tgt, rfl⟩
  · rintro ⟨m, f, hw⟩
    exact encodeRow_image (encodeRow_spellArgs hw)

/-- Settles O28: a word that decodes packs from its fields; a word of the image is a packing, which separate
codes let the decoder read back. -/
theorem decoderAcceptsExactlyTheImage : Obligations.DecoderAcceptsExactlyTheImage := by
  intro c w hc
  rw [inImage_iff_packFields]
  constructor
  · rintro ⟨i, hi⟩
    obtain ⟨m, f, hfields, -⟩ := decode_eq_some.mp hi
    exact ⟨m, f, packFields_of_decodeFields hfields⟩
  · rintro ⟨m, f, hw⟩
    exact ⟨spell m f, decode_of_packFields hc hw⟩

/-- A token classifies as nothing but a row of R13 (R82). -/
theorem classify_eq_ok {c : Codes} {t : Tok} {row : Mnemonic × OpEntry}
    (h : classify (opTabRows c) t = .ok row) : ∃ m, row = (m, opEntry c m) := by
  obtain ⟨m, e⟩ := row
  unfold classify at h
  split at h
  · rename_i row hrow
    obtain rfl : row = (m, e) := Except.ok.inj h
    obtain ⟨-, rfl⟩ := lookupOp_some hrow
    exact ⟨m, rfl⟩
  · simp at h

theorem classify_name (c : Codes) (m : Mnemonic) :
    classify (opTabRows c) (mnemonicName m) = .ok (m, opEntry c m) := by
  simp only [classify, lower_mnemonicName, lookupOp_name]

/-- The word of a line is what the encoder of some row answers (R80, R81). -/
theorem encodeRow_of_lineResult {c : Codes} {line : Str} {w : Word}
    (h : lineResult regTabRows (opTabRows c) line = .word w) :
    ∃ m args, encodeRow regTabRows (opEntry c m) args = .ok w := by
  rw [lineResult_eq] at h
  cases htok : tokenize line with
  | nil => simp [htok] at h
  | cons t args =>
    cases hrow : classify (opTabRows c) t with
    | error e => simp [htok, hrow, bind, Except.bind] at h
    | ok row =>
      obtain ⟨m, rfl⟩ := classify_eq_ok hrow
      cases henc : encodeRow regTabRows (opEntry c m) args with
      | error e => simp [htok, hrow, henc, bind, Except.bind] at h
      | ok w' =>
        simp only [htok, hrow, henc, bind, Except.bind, Result.word.injEq] at h
        exact ⟨m, args, h ▸ henc⟩

/-- The canonical line of a row and operands has the result WORD of their packing. -/
theorem lineResult_spellLine {c : Codes} {m : Mnemonic} {f : Fields} {w : Word}
    (h : packFields (opEntry c m) f = some w) :
    lineResult regTabRows (opTabRows c) (spellLine m (spellArgs f)) = .word w := by
  have htok : tokenize (spellLine m (spellArgs f)) = mnemonicName m :: spellArgs f :=
    tokenize_spellLine m (plainToken_spellArgs f)
  simp only [lineResult_eq, htok, classify_name, encodeRow_spellArgs h, bind, Except.bind]

/-- Settles O29: a line's word is one of a row's encoder; a word of the image has the canonical line of its
row and operands. -/
theorem linesEncodeExactlyTheImage : Obligations.LinesEncodeExactlyTheImage := by
  intro c w
  constructor
  · rintro ⟨line, h⟩
    obtain ⟨m, args, hrow⟩ := encodeRow_of_lineResult h
    exact encodeRow_image hrow
  · intro h
    obtain ⟨m, f, hw⟩ := inImage_iff_packFields.mp h
    exact ⟨spellLine m (spellArgs f), lineResult_spellLine hw⟩

/-- A line that fits, read as an instruction, is run (R80). -/
theorem lineStep_of_lookupOp {s : State} {line : Str} {t : Tok} {args : List Tok} {m : Mnemonic}
    {e : OpEntry} (hh : s.halt = false) (hf : s.fits line = true) (htok : tokenize line = t :: args)
    (hop : lookupOp s.optab (lower t) = some (m, e)) :
    lineStep line s = exec (m.instr line args) s := by
  rw [lineStep_of_fits hh hf]
  simp only [fetchLine, htok, classify, hop]

/-- Settles O30: the step on a presented line is the line step, which runs what the line is read as. -/
theorem stepRunsTheInstructionItReads : Obligations.StepRunsTheInstructionItReads := by
  intro s line rest t args m e hp hs hh hf htok hop
  rw [step_line hs hp]
  exact lineStep_of_lookupOp hh hf htok hop

/-- Settles O31: the line presented is the canonical line of the decoded instruction, whose first token is
its mnemonic's name. -/
theorem presentedTableWordRunsNext : Obligations.PresentedTableWordRunsNext := by
  intro s nbits w i ht hu hi
  obtain ⟨-, hop⟩ := ht
  have hline : lineOfTableWord nbits w = i.line := by simp only [lineOfTableWord, hi]
  have hdec : decode Config.codes (BitVec.ofNat 19 (w % 2 ^ nbits)) = some i := by
    unfold decodeTableWord at hi
    split at hi
    · exact hi
    · simp at hi
  obtain ⟨m, f, -, rfl⟩ := decode_eq_some.mp hdec
  rw [spell_line] at hline
  have hp : (s.withFetchWord nbits w).pending
      = .line (spellLine m (spellArgs f)) :: s.pending := by
    rw [← hline]
    rfl
  refine stepRunsTheInstructionItReads _ _ s.pending (mnemonicName m) (spellArgs f) m
    (opEntry Config.codes m) hp rfl rfl (fits_of_unbounded hu _)
    (tokenize_spellLine m (plainToken_spellArgs f)) ?_
  have hop' : (s.withFetchWord nbits w).optab = opTabRows Config.codes := hop
  rw [lower_mnemonicName, hop', lookupOp_name]

/-- Settles O24: REF has a value for every code, so the decoder evaluates. -/
theorem writtenOutWordsDecode : Obligations.WrittenOutWordsDecode := by
  unfold Obligations.WrittenOutWordsDecode
  decide

end Sys2Proof.Machine
end

section
/-! PROOFS. The statements about RESET, SRC_FAIL and HALT (spec/60_exceptions.md R146, R147,
spec/70_reset_and_hazards.md R160), about what a step takes and keeps (spec/10_state.md R15, R16, R24), and about
lines beyond a bound (spec/00_scope.md R5). -/

namespace Sys2Proof.Machine

/-- A presented RESET is the reset sequence, whatever the state (R160). -/
theorem step_reset {s : State} {rest : List Input} (hp : s.pending = .reset :: rest) :
    step s = .next (resetBlock { s with pending := rest }) := by
  simp only [step, takeInput, hp]

/-- A source failure presented to a started block is handled (R146). -/
theorem step_srcFail {s : State} {rest : List Input} (hs : s.started = true)
    (hp : s.pending = .srcFail :: rest) : step s = .next (srcFail { s with pending := rest }) := by
  simp only [step, takeInput, hp, hs, if_true]

/-- A source failure leaves HALT at 1 and appends FATAL the first time, IGNORED after it; nothing else
changes (R146). -/
theorem srcFail_eq (s : State) :
    srcFail s = { s with
      halt := true, results := s.results ++ [if s.halt then .ignored else .fatal] } := by
  obtain ⟨rt, ot, out, err, lead, halt, started, lineMax, tokMax, pending, results⟩ := s
  cases halt <;> rfl

/-- Settles O1: each field is read off the definition. -/
theorem resetStateHoldsTheSpecsValues : Obligations.ResetStateHoldsTheSpecsValues :=
  ⟨rfl, rfl, rfl, rfl, ⟨rfl, rfl⟩, rfl, ⟨rfl, rfl⟩, rfl, rfl⟩

/-- Settles O2: the reset sequence overwrites every field but the tables, the bounds and the inputs. -/
theorem resetInputGivesTheResetStateFromAnyState :
    Obligations.ResetInputGivesTheResetStateFromAnyState := by
  intro s rest hp
  rw [step_reset hp]
  rfl

/-- Settles O6, input by input: each takes itself off, and none touches the bounds. -/
theorem stepTakesExactlyTheNextInput : Obligations.StepTakesExactlyTheNextInput := by
  intro s t h
  obtain ⟨hp, rfl⟩ | ⟨rest, hp, rfl⟩ | ⟨line, rest, hp, -, hline⟩ | ⟨rest, hp, -, rfl⟩ := step_cases h
  case inl => simp [hp]
  case inr.inl => simp [hp]
  case inr.inr.inl =>
    obtain ⟨r, -, -, rfl⟩ := lineStep_frame hline
    simp [hp]
  case inr.inr.inr => simp [hp, srcFail_eq]

/-- Settles O35: a line appends the word or the event of its one result, a source failure neither. -/
theorem outputsAreAppendOnly : Obligations.OutputsAreAppendOnly := by
  intro s t h hne
  obtain ⟨-, rfl⟩ | ⟨rest, hp, -⟩ | ⟨line, rest, -, -, hline⟩ | ⟨rest, -, -, rfl⟩ := step_cases h
  case inl => exact ⟨⟨[], List.append_nil _⟩, ⟨[], List.append_nil _⟩⟩
  case inr.inl => exact absurd hp (hne rest)
  case inr.inr.inl =>
    obtain ⟨r, -, -, rfl⟩ := lineStep_frame hline
    exact ⟨⟨wordsOf [r], rfl⟩, ⟨errorsOf [r], rfl⟩⟩
  case inr.inr.inr =>
    rw [srcFail_eq]
    exact ⟨⟨[], List.append_nil _⟩, ⟨[], List.append_nil _⟩⟩

/-- Settles O38: a line to a halted block appends IGNORED; no line and no source failure clears HALT; a
completed run has HALT 0. -/
theorem haltedBlockIgnoresLinesUntilReset : Obligations.HaltedBlockIgnoresLinesUntilReset := by
  refine ⟨?ignored, ?cleared, ?completed⟩
  case ignored =>
    intro s line rest hh hs hp
    rw [step_line hs hp, lineStep, if_pos hh]
    rfl
  case cleared =>
    intro s t hh h ht
    obtain ⟨-, rfl⟩ | ⟨rest, hp, -⟩ | ⟨line, rest, -, -, hline⟩ | ⟨rest, -, -, rfl⟩ := step_cases h
    case inl => simp [hh] at ht
    case inr.inl => exact ⟨rest, hp⟩
    case inr.inr.inl =>
      obtain ⟨r, -, -, rfl⟩ := lineStep_frame hline
      simp [hh] at ht
    case inr.inr.inr => simp [srcFail_eq] at ht
  case completed =>
    rintro s hh ⟨-, hrun⟩
    simp [hh] at hrun

/-- Settles O39: the two results of a source failure. -/
theorem sourceFailureHaltsOnce : Obligations.SourceFailureHaltsOnce := by
  intro s rest hs hp
  rw [step_srcFail hs hp, srcFail_eq]
  refine ⟨fun hh => ?_, fun hh => ?_⟩ <;> simp [hh]

/-- Settles O40: of the three inputs only RESET has a step before the first RESET (R23, U10). -/
theorem inputBeforeTheFirstResetIsStuck : Obligations.InputBeforeTheFirstResetIsStuck := by
  intro s i rest hs hp hi
  cases i with
  | reset => exact absurd rfl hi
  | line l => simp [step, takeInput, hp, hs]
  | srcFail => simp [step, takeInput, hp, hs]

theorem withinBound_eq_false {n k : Nat} (h : n < k) : withinBound (some n) k = false := by
  simpa [withinBound] using h

/-- Settles O41: the two bounds are tested in this order, before the line is read. -/
theorem lineBeyondABoundIsRefused : Obligations.LineBeyondABoundIsRefused := by
  intro s line rest hs hh hp
  rw [step_line hs hp]
  refine ⟨fun n hmax hlong => ?_, fun n hfit hmax hmany => ?_⟩
  · have hlen : withinBound s.lineMax line.length = false := by
      rw [hmax, withinBound_eq_false hlong]
    simp [lineStep, hh, hlen]
  · have htok : withinBound s.tokMax (tokenize line).length = false := by
      rw [hmax, withinBound_eq_false hmany]
    simp [lineStep, hh, hfit, htok]

end Sys2Proof.Machine
end

section
/-! PROOFS. The invariant of every step (spec/20_memory.md R40, R41, spec/30_encoding.md R61, spec/60_exceptions.md
R136, R146) and the statements about runs that rest on it. -/

namespace Sys2Proof.Machine

@[simp] theorem wordsOf_append (rs rs' : List Result) :
    wordsOf (rs ++ rs') = wordsOf rs ++ wordsOf rs' :=
  List.filterMap_append

@[simp] theorem errorsOf_append (rs rs' : List Result) :
    errorsOf (rs ++ rs') = errorsOf rs ++ errorsOf rs' :=
  List.filterMap_append

theorem mem_wordsOf_singleton {w : Word} {r : Result} : w ∈ wordsOf [r] ↔ r = .word w := by
  cases r <;> simp [wordsOf, resultWord?, eq_comm]

theorem mem_errorsOf_singleton {e : ErrorEvent} {r : Result} : e ∈ errorsOf [r] ↔ r = .error e := by
  cases r <;> simp [errorsOf, resultError?, eq_comm]

/-- A result that a line may have under the codes `c`: no FATAL, a word of the image (R61), an event of its
kind's form (R136). -/
structure LineResultOk (c : Codes) (r : Result) : Prop where
  not_fatal : r ≠ .fatal
  image : ∀ w, r = .word w → InImage c w
  event : ∀ e, r = .error e → EventOk e

theorem lineResultOk_ignored (c : Codes) : LineResultOk c .ignored := by
  constructor <;> simp

/-- An error that `encode` answers on a token line is an unknown mnemonic or one of a row's shape (R143). -/
theorem eventOk_of_encodeTokens {c : Codes} {toks : List Tok} {e : EncError} (line : Str)
    (h : encodeTokens regTabRows (opTabRows c) toks = .error e) : EventOk (eventOf line e) := by
  cases toks with
  | nil => simp [encodeTokens] at h
  | cons t args =>
    cases hrow : classify (opTabRows c) t with
    | error e' =>
      have he : e' = .unknownInstruction t := by
        unfold classify at hrow
        split at hrow <;> simp_all
      simp only [encodeTokens, hrow, he, bind, Except.bind, Except.error.injEq] at h
      exact h ▸ eventOk_unknown line t
    | ok row =>
      cases henc : encodeRow regTabRows row.2 args with
      | ok w => simp [encodeTokens, hrow, henc, bind, Except.bind, pure, Except.pure] at h
      | error e' =>
        simp only [encodeTokens, hrow, henc, bind, Except.bind, Except.error.injEq] at h
        exact h ▸ eventOk_of_shape line (encodeRow_error henc)

/-- What `line_result` answers is SKIP, a word of the image or an event of its kind's form. -/
theorem lineResultOk_lineResult (c : Codes) (line : Str) :
    LineResultOk c (lineResult regTabRows (opTabRows c) line) := by
  have himage : ∀ w, lineResult regTabRows (opTabRows c) line = .word w → InImage c w := by
    intro w hw
    obtain ⟨m, args, hrow⟩ := encodeRow_of_lineResult hw
    exact encodeRow_image hrow
  obtain ⟨-, h⟩ | ⟨-, ⟨w, -, h⟩ | ⟨e, he, h⟩⟩ := lineResult_cases regTabRows (opTabRows c) line
  case inl => exact ⟨by simp [h], himage, by simp [h]⟩
  case inr.inl => exact ⟨by simp [h], himage, by simp [h]⟩
  case inr.inr =>
    refine ⟨by simp [h], himage, fun e' he' => ?_⟩
    rw [h, Result.error.injEq] at he'
    exact he' ▸ eventOk_of_encodeTokens line he

/-- What a block answers a line with: IGNORED while HALT is 1, else the line's result (R80, R147). -/
def lineAnswer (c : Codes) (halt : Bool) (line : Str) : Result :=
  if halt then .ignored else lineResult regTabRows (opTabRows c) line

@[simp] theorem lineAnswer_running (c : Codes) :
    lineAnswer c false = lineResult regTabRows (opTabRows c) := rfl

@[simp] theorem lineAnswer_halted (c : Codes) : lineAnswer c true = fun _ => .ignored := rfl

theorem lineResultOk_lineAnswer (c : Codes) (halt : Bool) (line : Str) :
    LineResultOk c (lineAnswer c halt line) := by
  cases halt
  · exact lineResultOk_lineResult c line
  · exact lineResultOk_ignored c

/-- A line step to a block with its tables appends the block's answer, if the block is halted or the line
within the bounds. -/
theorem lineStep_eq_lineAnswer {c : Codes} {s : State} {line : Str} (ht : s.Tables c)
    (hf : s.halt = false → s.fits line = true) :
    lineStep line s = .next (s.afterResult s.pending (lineAnswer c s.halt line)) := by
  cases hh : s.halt with
  | true => exact lineStep_of_halt hh
  | false => exact lineStep_eq_lineResult ht hh (hf hh)

/-- A block that is not halted goes on only with a line within the bounds (D18). -/
theorem fits_of_lineStep {s t : State} {line : Str} (h : lineStep line s = .next t)
    (hh : s.halt = false) : s.fits line = true := by
  unfold lineStep at h
  simp only [hh, Bool.false_eq_true, if_false] at h
  split at h
  · simp at h
  split at h
  · simp at h
  simp_all [State.fits]

/-- The invariant says nothing of the inputs still pending, and a line's answer keeps it. -/
theorem Inv.afterResult {c : Codes} {s : State} {r : Result} (h : Inv c s) (rest : List Input)
    (hr : LineResultOk c r) : Inv c (s.afterResult rest r) where
  tables := h.tables
  started := h.started
  lead := h.lead
  out_eq := by simp [h.out_eq]
  err_eq := by simp [h.err_eq]
  halt_iff := by simp [h.halt_iff, hr.not_fatal.symm]
  image := by
    intro w hw
    obtain hw | hw := List.mem_append.mp hw
    · exact h.image w hw
    · exact hr.image w (mem_wordsOf_singleton.mp hw)
  events := by
    intro e he
    obtain he | he := List.mem_append.mp he
    · exact h.events e he
    · exact hr.event e (mem_errorsOf_singleton.mp he)

/-- A RESET establishes the invariant in any state with its tables (R160, R161). -/
theorem inv_resetBlock {c : Codes} {s : State} (ht : s.Tables c) : Inv c (resetBlock s) where
  tables := ht
  started := rfl
  lead := rfl
  out_eq := rfl
  err_eq := rfl
  halt_iff := by simp
  image := by
    have hzero : InImage c zeroWord := .inl ⟨fnAdd, List.mem_cons_self, 0, 0, 0, rfl⟩
    simp [hzero]
  events := by simp

/-- A source failure sets HALT and records FATAL, or finds both so (R146). -/
theorem Inv.srcFail {c : Codes} {s : State} (h : Inv c s) : Inv c (srcFail s) := by
  rw [srcFail_eq]
  refine ⟨h.tables, h.started, h.lead, ?_, ?_, ?_, h.image, h.events⟩
  · cases hh : s.halt <;> simp [h.out_eq, wordsOf, resultWord?]
  · cases hh : s.halt <;> simp [h.err_eq, errorsOf, resultError?]
  · cases hh : s.halt
    · simp
    · simp [h.halt_iff.mp hh]

theorem Inv.setPending {c : Codes} {s : State} (h : Inv c s) (rest : List Input) :
    Inv c { s with pending := rest } :=
  ⟨h.tables, h.started, h.lead, h.out_eq, h.err_eq, h.halt_iff, h.image, h.events⟩

/-- Settles O42: the state after reset is a reset block with its tables. -/
theorem resetStateSatisfiesTheInvariant : Obligations.ResetStateSatisfiesTheInvariant :=
  inv_resetBlock (s := State.reset) ⟨rfl, rfl⟩

/-- Settles O43, input by input. -/
theorem everyStepKeepsTheInvariant : Obligations.EveryStepKeepsTheInvariant := by
  intro c s t hinv h
  obtain ⟨-, rfl⟩ | ⟨rest, -, rfl⟩ | ⟨line, rest, -, -, hline⟩ | ⟨rest, -, -, rfl⟩ := step_cases h
  case inl => exact hinv
  case inr.inl => exact inv_resetBlock hinv.tables
  case inr.inr.inl =>
    have heq := lineStep_eq_lineAnswer (hinv.setPending rest).tables (fits_of_lineStep hline)
    rw [heq, Host.Outcome.next.injEq] at hline
    exact hline ▸ hinv.afterResult rest (lineResultOk_lineAnswer c _ line)
  case inr.inr.inr => exact (hinv.setPending rest).srcFail

/-- What every step keeps, every run keeps. -/
theorem runSteps_keeps {P : State → Prop} (hstep : ∀ s t, P s → step s = .next t → P t) {k : Nat}
    {s t : State} (hs : P s) (h : runSteps k s = .next t) : P t := by
  induction k generalizing s with
  | zero => exact Host.Outcome.next.inj h ▸ hs
  | succ k ih =>
    cases hst : step s with
    | next s' =>
      rw [runSteps_succ hst] at h
      exact ih (hstep s s' hs hst) h
    | fault r => simp [runSteps, hst] at h
    | refused r => simp [runSteps, hst] at h

/-- Settles O44: the invariant along the run, and its zero word at index 0. -/
theorem everyRunKeepsTheZeroWordFirst : Obligations.EveryRunKeepsTheZeroWordFirst := by
  intro c k s t hinv h
  have hend : Inv c t := runSteps_keeps (everyStepKeepsTheInvariant c) hinv h
  refine ⟨?_, hend⟩
  rw [hend.out_eq]
  rfl

/-- A presented line is answered: by a started block with its tables and no bound. -/
theorem step_line_eq {c : Codes} {s : State} {line : Str} {rest : List Input} (ht : s.Tables c)
    (hu : s.Unbounded) (hs : s.started = true) (hp : s.pending = .line line :: rest) :
    step s = .next (s.afterResult rest (lineAnswer c s.halt line)) := by
  rw [step_line hs hp]
  exact lineStep_eq_lineAnswer (s := { s with pending := rest }) ht
    fun _ => fits_of_unbounded hu line

/-- Settles O45: each of the three inputs has a step in a started block without bounds. -/
theorem noStepStopsAfterReset : Obligations.NoStepStopsAfterReset := by
  intro c s hinv hu
  cases hp : s.pending with
  | nil => exact ⟨s, by simp only [step, hp]⟩
  | cons i rest =>
    cases i with
    | reset => exact ⟨_, step_reset hp⟩
    | line l => exact ⟨_, step_line_eq hinv.tables hu hinv.started hp⟩
    | srcFail => exact ⟨_, step_srcFail hinv.started hp⟩

/-- The I-type mnemonics, in the order of the codes (R5, R13). -/
def iMnemonics : List Mnemonic := [.addi, .andi, .lw, .lea, .sw, .pcm, .beq]

theorem iOpcodes_eq_map (c : Codes) : c.iOpcodes = iMnemonics.map (entryOpcode ∘ opEntry c) := rfl

theorem mem_iMnemonics_of_opEntry {c : Codes} {m : Mnemonic} {opc : BitVec 4}
    (h : opEntry c m = .i opc) : m ∈ iMnemonics := by
  cases m <;> simp [opEntry] at h <;> decide

/-- Two I-type rows with one opcode are one row (R6 (b)). -/
theorem opEntry_i_inj {c : Codes} {m m' : Mnemonic} {opc : BitVec 4} (h : opEntry c m = .i opc)
    (h' : opEntry c m' = .i opc) : m = m' := by
  have hnodup : (iMnemonics.map (entryOpcode ∘ opEntry c)).Nodup := by
    rw [← iOpcodes_eq_map]
    exact c.iOpcodes_distinct
  refine List.inj_on_of_nodup_map hnodup (mem_iMnemonics_of_opEntry h) (mem_iMnemonics_of_opEntry h') ?_
  simp [h, h']

/-- Settles O47: no run writes OPTAB, and the rows it holds have distinct I-type opcodes. -/
theorem iTypeOpcodesAreDistinctAlongEveryRun : Obligations.ITypeOpcodesAreDistinctAlongEveryRun := by
  rintro c k s t ⟨-, hop⟩ h
  have hkeep : t.optab = s.optab := by
    refine runSteps_keeps (P := fun u => u.optab = s.optab) (fun u u' hu hstep => ?_) rfl h
    obtain ⟨-, hop'⟩ := noStepWritesTheTables u u' hstep
    exact hop'.trans hu
  refine ⟨hkeep, fun n1 n2 m1 m2 opc h1 h2 => ?_⟩
  rw [hop] at h1
  rw [hkeep, hop] at h2
  obtain ⟨-, he1⟩ := lookupOp_some h1
  obtain ⟨-, he2⟩ := lookupOp_some h2
  exact opEntry_i_inj he1.symm he2.symm

end Sys2Proof.Machine
end

section
/-! PROOFS. The end of a run (spec/70_reset_and_hazards.md R164). -/

namespace Sys2Proof.Machine

/-- A run of some steps that goes on, and then the others. -/
theorem runSteps_add {j k : Nat} {s t : State} (h : runSteps j s = .next t) :
    runSteps (j + k) s = runSteps k t := by
  induction j generalizing s with
  | zero => rw [Nat.zero_add, Host.Outcome.next.inj h]
  | succ j ih =>
    cases hst : step s with
    | next s' =>
      rw [runSteps_succ hst] at h
      rw [Nat.add_right_comm, runSteps_succ hst, ih h]
    | fault r => simp [runSteps, hst] at h
    | refused r => simp [runSteps, hst] at h

/-- The state after several inputs with results `rs`: their words and events appended, in order. -/
def State.afterResults (s : State) (rest : List Input) (rs : List Result) : State :=
  { s with
    pending := rest, out := s.out ++ wordsOf rs, err := s.err ++ errorsOf rs,
    results := s.results ++ rs }

theorem afterResults_nil (s : State) : s.afterResults s.pending [] = s := by
  simp [State.afterResults, wordsOf, errorsOf]

theorem afterResults_afterResult (s : State) (rest rest' : List Input) (r : Result)
    (rs : List Result) :
    (s.afterResult rest r).afterResults rest' rs = s.afterResults rest' (r :: rs) := by
  have hw : wordsOf (r :: rs) = wordsOf [r] ++ wordsOf rs := wordsOf_append [r] rs
  have he : errorsOf (r :: rs) = errorsOf [r] ++ errorsOf rs := errorsOf_append [r] rs
  simp [State.afterResults, hw, he]

/-- A run over presented lines: each is answered in its turn. -/
theorem runSteps_lines {c : Codes} {ls : List Str} {rest : List Input} {s : State} (ht : s.Tables c)
    (hu : s.Unbounded) (hs : s.started = true) (hp : s.pending = ls.map Input.line ++ rest) :
    runSteps ls.length s = .next (s.afterResults rest (ls.map (lineAnswer c s.halt))) := by
  induction ls generalizing s with
  | nil =>
    have hrest : s.pending = rest := hp
    rw [← hrest]
    exact congrArg _ (afterResults_nil s).symm
  | cons l ls ih =>
    have hrest := ih (s := s.afterResult (ls.map Input.line ++ rest) (lineAnswer c s.halt l)) ht hu hs rfl
    rw [List.length_cons, runSteps_succ (step_line_eq ht hu hs hp)]
    exact hrest.trans (congrArg _ (afterResults_afterResult s _ rest _ _))

/-- Each result that is neither IGNORED nor FATAL is a word, an event or a skip. -/
theorem words_errors_skips_length {rs : List Result} (h : ∀ r ∈ rs, r ≠ .ignored ∧ r ≠ .fatal) :
    (wordsOf rs).length + (errorsOf rs).length + rs.count .skip = rs.length := by
  induction rs with
  | nil => rfl
  | cons r rs ih =>
    obtain ⟨hignored, hfatal⟩ := h r List.mem_cons_self
    have hrs := ih fun r' hr' => h r' (List.mem_cons_of_mem r hr')
    have hone : (wordsOf [r]).length + (errorsOf [r]).length + [r].count .skip = 1 := by
      cases r with
      | skip => rfl
      | word w => rfl
      | error e => rfl
      | ignored => exact absurd rfl hignored
      | fatal => exact absurd rfl hfatal
    rw [← List.singleton_append, wordsOf_append, errorsOf_append, List.count_append]
    simp only [List.length_append, List.length_singleton]
    omega

/-- A line's result is neither IGNORED nor FATAL (R80). -/
theorem lineResult_ne (rt : RegTab) (ot : OpTab) (line : Str) :
    lineResult rt ot line ≠ .ignored ∧ lineResult rt ot line ≠ .fatal := by
  obtain ⟨-, h⟩ | ⟨-, ⟨w, -, h⟩ | ⟨e, -, h⟩⟩ := lineResult_cases rt ot line <;> simp [h]

/-- What follows the lines of a run: nothing, or the SRC_FAIL that cuts it short and further lines. -/
def cutInputs : Option (List Str) → List Input
  | none => []
  | some ms => .srcFail :: ms.map Input.line

/-- The results of those inputs: FATAL, and IGNORED for every line after it (R146, R147). -/
def cutResults : Option (List Str) → List Result
  | none => []
  | some ms => .fatal :: ms.map fun _ => .ignored

@[simp] theorem wordsOf_cutResults (cut : Option (List Str)) : wordsOf (cutResults cut) = [] := by
  cases cut <;> simp [cutResults, wordsOf, resultWord?]

@[simp] theorem errorsOf_cutResults (cut : Option (List Str)) : errorsOf (cutResults cut) = [] := by
  cases cut <;> simp [cutResults, errorsOf, resultError?]

@[simp] theorem count_skip_cutResults (cut : Option (List Str)) :
    (cutResults cut).count .skip = 0 := by
  cases cut <;> simp [cutResults, List.count_eq_zero]

@[simp] theorem fatal_mem_cutResults (cut : Option (List Str)) :
    Result.fatal ∈ cutResults cut ↔ cut.isSome = true := by
  cases cut <;> simp [cutResults]

/-- The rest of a run after its lines takes every input, with the results of the cut. -/
theorem exists_runSteps_cut {c : Codes} {s : State} {cut : Option (List Str)} (hinv : Inv c s)
    (hu : s.Unbounded) (hh : s.halt = false) (hp : s.pending = cutInputs cut) :
    ∃ t, runSteps (cutInputs cut).length s = .next t ∧ t.pending = [] ∧
      t.results = s.results ++ cutResults cut := by
  cases cut with
  | none => exact ⟨s, rfl, hp, (List.append_nil _).symm⟩
  | some ms =>
    have hfail := step_srcFail hinv.started hp
    have hinv' : Inv c (srcFail { s with pending := ms.map Input.line }) :=
      (hinv.setPending _).srcFail
    have hlines := runSteps_lines (ls := ms) (rest := []) hinv'.tables (by simpa [srcFail_eq] using hu)
      hinv'.started (by simp [srcFail_eq])
    refine ⟨_, (runSteps_succ hfail).trans (List.length_map _ ▸ hlines), rfl, ?_⟩
    simp [State.afterResults, srcFail_eq, hh, cutResults]

/-- A run over lines and a cut takes every input, with the results of the lines and of the cut. -/
theorem exists_runSteps_lines_cut {c : Codes} {s : State} {ls : List Str} {cut : Option (List Str)}
    (hinv : Inv c s) (hu : s.Unbounded) (hh : s.halt = false)
    (hp : s.pending = ls.map Input.line ++ cutInputs cut) :
    ∃ t, runSteps s.pending.length s = .next t ∧ t.pending = [] ∧
      t.results = s.results ++ ls.map (lineResult regTabRows (opTabRows c)) ++ cutResults cut := by
  have hlines := runSteps_lines hinv.tables hu hinv.started hp
  rw [hh, lineAnswer_running] at hlines
  have hinv' := runSteps_keeps (everyStepKeepsTheInvariant c) hinv hlines
  obtain ⟨t, hrun, hpend, hres⟩ := exists_runSteps_cut hinv' hu hh rfl
  refine ⟨t, ?_, hpend, hres⟩
  rw [hp, List.length_append, List.length_map]
  exact (runSteps_add hlines).trans hrun

/-- Settles O46: the invariant reads OUT, ERR, LEAD and HALT off the results, and the results are those of the
lines and of the cut. -/
theorem runEndsWithTheWordsAndErrorsOfItsLines :
    Obligations.RunEndsWithTheWordsAndErrorsOfItsLines := by
  intro c s ls cut ht hu hp
  have hcut : s.pending = .reset :: ls.map Input.line ++ cutInputs cut := by
    cases cut <;> exact hp
  have hreset := step_reset hcut
  have hinv0 := inv_resetBlock (s := { s with pending := ls.map Input.line ++ cutInputs cut }) ht
  obtain ⟨t, hrest, hpend, hres⟩ := exists_runSteps_lines_cut (ls := ls) (cut := cut) hinv0 hu rfl rfl
  have hinv : Inv c t := runSteps_keeps (everyStepKeepsTheInvariant c) hinv0 hrest
  have hrun : runSteps s.pending.length s = .next t := by
    rw [hcut]
    exact (runSteps_succ hreset).trans hrest
  rw [resetBlock_results, List.nil_append] at hres
  have hout : t.out = 0#19 :: wordsOf (ls.map (lineResult regTabRows (opTabRows c))) := by
    rw [hinv.out_eq, hres, wordsOf_append, wordsOf_cutResults, List.append_nil, zeroWord]
  have herr : t.err = errorsOf (ls.map (lineResult regTabRows (opTabRows c))) := by
    rw [hinv.err_eq, hres, errorsOf_append, errorsOf_cutResults, List.append_nil]
  have hlines : ∀ r ∈ ls.map (lineResult regTabRows (opTabRows c)), r ≠ .ignored ∧ r ≠ .fatal := by
    simp only [List.mem_map]
    rintro _ ⟨line, -, rfl⟩
    exact lineResult_ne regTabRows (opTabRows c) line
  have hhalt : t.halt = cut.isSome := by
    have hfatal : Result.fatal ∉ ls.map (lineResult regTabRows (opTabRows c)) :=
      fun h => (hlines _ h).2 rfl
    rw [Bool.eq_iff_iff, hinv.halt_iff, hres, List.mem_append, or_iff_right hfatal,
      fatal_mem_cutResults]
  have hcount := words_errors_skips_length hlines
  refine ⟨t, hrun, hpend, hout, herr, hinv.lead, hhalt, ?count, ?completed⟩
  case count =>
    rw [hout, herr, hres, List.count_append, count_skip_cutResults, Nat.add_zero, List.length_cons,
      Nat.add_sub_cancel, hcount, List.length_map]
  case completed => simp [State.completed, hpend, hhalt]

end Sys2Proof.Machine
end

section
/-! PROOFS. Where each instruction takes an error, and that it takes none exactly where it is well formed
(spec/40_common_and_operands.md R81 to R89, spec/60_exceptions.md R131 to R136, R143). -/

namespace Sys2Proof.Machine

/-- With the tables in place, an instruction takes the error that its row's encoder raises (R140). -/
theorem exec_of_error {c : Codes} {s : State} {m : Mnemonic} {args : List Tok} {e : EncError}
    (line : Str) (ht : s.Tables c) (h : encodeRow regTabRows (opEntry c m) args = .error e) :
    exec (m.instr line args) s = .next (s.plusError (eventOf line e)) := by
  obtain ⟨hreg, hop⟩ := ht
  rw [exec_eq hop, hreg, h]
  rfl

/-- The thirteen instructions of three operands are the mnemonics but jump (R4). -/
theorem threeOperand_of_mem {i : Instr} {line : Str} {args : List Tok}
    (h : i ∈ [Instr.add line args, .sub line args, .and line args, .or line args, .slt line args,
      .mvz line args, .addi line args, .andi line args, .lw line args, .lea line args,
      .sw line args, .pcm line args, .beq line args]) :
    ∃ m : Mnemonic, operandCount (mnemonicShape m) = 3 ∧ i = m.instr line args := by
  have hmap : i ∈ [Mnemonic.add, .sub, .and, .or, .slt, .mvz, .addi, .andi, .lw, .lea, .sw, .pcm,
      .beq].map (·.instr line args) := h
  obtain ⟨m, hmem, rfl⟩ := List.mem_map.mp hmap
  have hcount : ∀ m ∈ [Mnemonic.add, .sub, .and, .or, .slt, .mvz, .addi, .andi, .lw, .lea, .sw, .pcm,
      .beq], operandCount (mnemonicShape m) = 3 := by decide
  exact ⟨m, hcount m hmem, rfl⟩

/-- The six R-type instructions of a line are its R-type mnemonics (R51). -/
theorem rType_of_mem {i : Instr} {line : Str} {args : List Tok}
    (h : i ∈ [Instr.add line args, .sub line args, .and line args, .or line args, .slt line args,
      .mvz line args]) :
    ∃ m : Mnemonic, mnemonicShape m = .r ∧ i = m.instr line args := by
  have hmap : i ∈ [Mnemonic.add, .sub, .and, .or, .slt, .mvz].map (·.instr line args) := h
  obtain ⟨m, hmem, rfl⟩ := List.mem_map.mp hmap
  have hshape : ∀ m ∈ [Mnemonic.add, .sub, .and, .or, .slt, .mvz], mnemonicShape m = .r := by decide
  exact ⟨m, hshape m hmem, rfl⟩

/-- The cell of an R-type mnemonic holds a function code (R13). -/
theorem exists_opEntry_of_rType (c : Codes) {m : Mnemonic} (h : mnemonicShape m = .r) :
    ∃ fn, opEntry c m = .r fn := by
  rw [← entryShape_opEntry c] at h
  cases he : opEntry c m with
  | r fn => exact ⟨fn, rfl⟩
  | i opc => simp [he, entryShape] at h
  | j => simp [he, entryShape] at h

/-- Settles O10: the packed words of the two rows, whose codes are fixed. -/
theorem addOfRegisterZeroEmitsTheZeroWord : Obligations.AddOfRegisterZeroEmitsTheZeroWord := by
  intro c s line ht
  have hreg : lookupReg regTabRows (str "r0") = some 0#3 := by decide
  have hnum : parseNumeral (str "0") = some 0 := by decide
  have hadd : packR fnAdd 0#3 0#3 0#3 = 0#19 := by decide
  have hjump : packJ (tgtField 0) = 0b1111000000000000000#19 := by decide
  rw [← hadd, ← hjump]
  exact ⟨exec_of_encode ht (encode_rType (m := .add) line rfl hreg hreg hreg),
    exec_of_encode ht (encode_jump line hnum le_rfl (by decide))⟩

/-- A row of a shape raises ArityError on any other number of operands than the shape's (R83). -/
theorem encodeRow_arity {c : Codes} {m : Mnemonic} {args : List Tok}
    (h : args.length ≠ operandCount (mnemonicShape m)) :
    encodeRow regTabRows (opEntry c m) args
      = .error (.arity (operandCount (mnemonicShape m) + 1) (args.length + 1)) := by
  rw [← entryShape_opEntry c m] at h ⊢
  exact encodeRow_bad h

/-- Settles O11: the token count is checked before any operand is looked at. -/
theorem wrongTokenCountTakesArityError : Obligations.WrongTokenCountTakesArityError := by
  intro c s line args ht
  refine ⟨fun hlen i hi => ?three, fun hlen => ?one⟩
  case three =>
    obtain ⟨m, hcount, rfl⟩ := threeOperand_of_mem hi
    rw [← hcount] at hlen
    have hrow := encodeRow_arity (c := c) hlen
    rw [hcount] at hrow
    exact exec_of_error line ht hrow
  case one => exact exec_of_error (m := .jump) line ht (encodeRow_arity hlen)

/-- `encode_R` looks its registers up in the order of the fields: token 2, token 3, token 1 (R100, D12). -/
theorem encodeR_of_find {rt : RegTab} {fn : BitVec 3} {t1 t2 t3 bad : Tok}
    (h : [t2, t3, t1].find? (fun t => (lookupReg rt t).isNone) = some bad) :
    encodeR rt fn [t1, t2, t3] = .error (.invalidRegister bad) := by
  rw [encodeR_three]
  cases h2 : lookupReg rt t2 with
  | none => simp_all
  | some sa =>
    cases h3 : lookupReg rt t3 with
    | none => simp_all
    | some sb =>
      cases h1 : lookupReg rt t1 <;> simp_all

/-- `encode_I` looks its registers up in the order of the fields: token 2, token 1 (R110, D12). -/
theorem encodeI_of_find {rt : RegTab} {opc : BitVec 4} {t1 t2 t3 bad : Tok}
    (h : [t2, t1].find? (fun t => (lookupReg rt t).isNone) = some bad) :
    encodeI rt opc [t1, t2, t3] = .error (.invalidRegister bad) := by
  rw [encodeI_three]
  cases h2 : lookupReg rt t2 with
  | none => simp_all
  | some fb =>
    cases h1 : lookupReg rt t1 <;> simp_all

/-- Settles O12: the first failing look-up is the first bad token in that order. -/
theorem rTypeLineReportsItsFirstBadRegister : Obligations.RTypeLineReportsItsFirstBadRegister := by
  intro c s line t1 t2 t3 bad ht hbad i hi
  obtain ⟨m, hshape, rfl⟩ := rType_of_mem hi
  obtain ⟨fn, hm⟩ := exists_opEntry_of_rType c hshape
  refine exec_of_error line ht (e := .invalidRegister bad) ?_
  rw [hm]
  exact encodeR_of_find hbad

/-- Settles O13: both register look-ups come before the immediate. -/
theorem iTypeLineReportsItsFirstBadRegister : Obligations.ITypeLineReportsItsFirstBadRegister := by
  intro c s line t1 t2 t3 bad ht hbad i hi
  obtain ⟨m, hshape, rfl⟩ := iType_of_mem hi
  obtain ⟨opc, hm⟩ := exists_opEntry_of_iType c hshape
  refine exec_of_error line ht (e := .invalidRegister bad) ?_
  rw [hm]
  exact encodeI_of_find hbad

/-- With two register names an I-type instruction takes the error of its immediate (R110). -/
theorem exec_of_imm9_error {c : Codes} {s : State} {line : Str} {t1 t2 t3 : Tok} {e : EncError}
    (ht : s.Tables c) (h1 : (lookupReg regTabRows t1).isSome) (h2 : (lookupReg regTabRows t2).isSome)
    (h3 : imm9 t3 = .error e) {i : Instr}
    (hi : i ∈ [Instr.addi line [t1, t2, t3], .andi line [t1, t2, t3], .lw line [t1, t2, t3],
      .lea line [t1, t2, t3], .sw line [t1, t2, t3], .pcm line [t1, t2, t3],
      .beq line [t1, t2, t3]]) :
    exec i s = .next (s.plusError (eventOf line e)) := by
  obtain ⟨m, hshape, rfl⟩ := iType_of_mem hi
  obtain ⟨opc, hm⟩ := exists_opEntry_of_iType c hshape
  obtain ⟨ra, h1⟩ := Option.isSome_iff_exists.mp h1
  obtain ⟨rb, h2⟩ := Option.isSome_iff_exists.mp h2
  refine exec_of_error line ht ?_
  simp only [hm, encodeRow, encodeI_three, h1, h2, h3, Except.map]

/-- A jump instruction takes the error of its target (R120). -/
theorem exec_of_tgt12_error {c : Codes} {s : State} {line : Str} {t : Tok} {e : EncError}
    (ht : s.Tables c) (h : tgt12 t = .error e) :
    exec (.jump line [t]) s = .next (s.plusError (eventOf line e)) := by
  refine exec_of_error (m := .jump) line ht ?_
  simp only [opEntry, encodeRow, encodeJ_one, h, Except.map]

/-- Settles O14: both field encoders parse their token first. -/
theorem malformedNumeralIsReported : Obligations.MalformedNumeralIsReported := by
  intro c s line t ht hnum
  exact ⟨fun t1 t2 h1 h2 i hi => exec_of_imm9_error ht h1 h2 (imm9_of_none hnum) hi,
    exec_of_tgt12_error ht (tgt12_of_none hnum)⟩

/-- A value above or below the immediate's range is a RangeError with the bound it violates (R88). -/
theorem imm9_range {t : Tok} {v bound : Int} (h : parseNumeral t = some v)
    (hv : v > 255 ∧ bound = 255 ∨ v < -256 ∧ bound = -256) :
    imm9 t = .error (.range t bound) := by
  rw [imm9_of_some h, immMax, immMin]
  obtain ⟨habove, rfl⟩ | ⟨hbelow, rfl⟩ := hv
  · rw [if_pos habove]
  · rw [if_neg (by omega), if_pos hbelow]

/-- A value below or above the target's range is a RangeError with the bound it violates (R89). -/
theorem tgt12_range {t : Tok} {v bound : Int} (h : parseNumeral t = some v)
    (hv : v < 0 ∧ bound = 0 ∨ v > 4095 ∧ bound = 4095) :
    tgt12 t = .error (.range t bound) := by
  rw [tgt12_of_some h, tgtMin, tgtMax]
  obtain ⟨hbelow, rfl⟩ | ⟨habove, rfl⟩ := hv
  · rw [if_pos hbelow]
  · rw [if_neg (by omega), if_pos habove]

/-- Settles O15: the two field encoders' errors, with their bounds. -/
theorem outOfRangeNumeralIsReportedWithItsBound :
    Obligations.OutOfRangeNumeralIsReportedWithItsBound := by
  intro c s line t v ht hnum
  exact ⟨fun t1 t2 bound h1 h2 hv i hi => exec_of_imm9_error ht h1 h2 (imm9_range hnum hv) hi,
    fun bound hv => exec_of_tgt12_error ht (tgt12_range hnum hv)⟩

/-- What an instruction does with the tables in place: the end of what its row's encoder answers. -/
theorem exec_eq_settle {c : Codes} {s : State} (ht : s.Tables c) (i : Instr) :
    exec i s = .next (settle i.line (encodeRow regTabRows (opEntry c i.mnemonic) i.args) s) := by
  obtain ⟨hreg, hop⟩ := ht
  have h := exec_eq hop i.mnemonic i.line i.args
  rwa [instr_eta, hreg] at h

/-- An instruction that answers one more event has taken the error that its row's encoder raises. -/
theorem exists_error_of_exec {c : Codes} {s : State} {i : Instr} {e : ErrorEvent} (ht : s.Tables c)
    (h : exec i s = .next (s.plusError e)) :
    ∃ err, encodeRow regTabRows (opEntry c i.mnemonic) i.args = .error err ∧ e = eventOf i.line err := by
  rw [exec_eq_settle ht, Host.Outcome.next.injEq] at h
  have hres := congrArg State.results h
  cases henc : encodeRow regTabRows (opEntry c i.mnemonic) i.args with
  | ok w => simp [henc] at hres
  | error err =>
    refine ⟨err, rfl, ?_⟩
    simpa [henc, eq_comm] using hres

/-- The kinds of error that a line of each shape can raise (R143). -/
def shapeKinds : Shape → List ErrorKind
  | .r => [.arity, .invalidRegister]
  | .i => [.arity, .invalidRegister, .malformedNumeral, .range]
  | .j => [.arity, .malformedNumeral, .range]

/-- An error of a shape is of one of its kinds. -/
theorem errorKind_mem_shapeKinds {sh : Shape} {args : List Tok} {err : EncError}
    (h : errorOfShape sh args err) : errorKind err ∈ shapeKinds sh := by
  cases err with
  | arity n k => cases sh <;> simp [shapeKinds, errorKind]
  | invalidRegister t =>
    obtain ⟨hsh, -⟩ := h
    cases sh <;> simp_all [shapeKinds, errorKind]
  | range t b =>
    obtain ⟨-, ⟨rfl, -⟩ | ⟨rfl, -⟩⟩ := h <;> simp [shapeKinds, errorKind]
  | malformedNumeral t =>
    obtain ⟨hsh, -, -⟩ := h
    cases sh <;> simp_all [shapeKinds, errorKind]
  | unknownInstruction t => exact h.elim

/-- Settles O16: the event is that of an error of the instruction's shape. -/
theorem takenErrorIsOneOfItsShape : Obligations.TakenErrorIsOneOfItsShape := by
  intro c s i e ht h
  obtain ⟨err, henc, rfl⟩ := exists_error_of_exec ht h
  have hshape : errorOfShape (mnemonicShape i.mnemonic) i.args err := by
    rw [← entryShape_opEntry c]
    exact encodeRow_error henc
  refine ⟨eventOk_of_shape i.line hshape, rfl, ?kind⟩
  case kind =>
    have hkind : (eventOf i.line err).kind ∈ shapeKinds (mnemonicShape i.mnemonic) :=
      errorKind_mem_shapeKinds hshape
    cases hsh : mnemonicShape i.mnemonic <;> rw [hsh] at hkind <;> exact hkind

/-- An instruction has a word exactly where it is well formed (R63). -/
theorem encode_isSome_iff_wellFormed (c : Codes) (i : Instr) :
    (∃ w, encode c i = some w) ↔ i.WellFormed = true := by
  rw [wellFormed_iff_resolve]
  constructor
  · rintro ⟨w, hw⟩
    obtain ⟨f, hf, -⟩ := Option.bind_eq_some_iff.mp hw
    exact ⟨f, hf⟩
  · rintro ⟨f, hf⟩
    rw [encode_of_resolve hf]
    exact exists_packFields (fieldsShape_of_resolve hf) c

/-- A row's encoder answers an instruction's word, and no other. -/
theorem encodeRow_eq_ok_iff_encode {c : Codes} {i : Instr} {w : Word} :
    encodeRow regTabRows (opEntry c i.mnemonic) i.args = .ok w ↔ encode c i = some w := by
  rw [encodeRow_eq_ok, entryShape_opEntry, encode, Option.bind_eq_some_iff]

/-- Settles O17: the row's encoder answers the instruction's word where there is one, and raises an error of
the shape where there is none. -/
theorem instructionEmitsExactlyTheEncodersWord : Obligations.InstructionEmitsExactlyTheEncodersWord := by
  intro c s i ht
  refine ⟨fun hwf => ?wellFormed, fun hill => ?illFormed⟩
  case wellFormed =>
    obtain ⟨w, hw⟩ := (encode_isSome_iff_wellFormed c i).mpr hwf
    exact ⟨w, hw, exec_of_encode ht hw⟩
  case illFormed =>
    have hnone : encode c i = none := by
      rw [Option.eq_none_iff_forall_ne_some]
      intro w hw
      simp [(encode_isSome_iff_wellFormed c i).mp ⟨w, hw⟩] at hill
    refine ⟨hnone, ?_⟩
    cases henc : encodeRow regTabRows (opEntry c i.mnemonic) i.args with
    | ok w => simp [encodeRow_eq_ok_iff_encode.mp henc] at hnone
    | error err =>
      refine ⟨eventOf i.line err, ?_, rfl, eventOk_of_shape i.line (encodeRow_error henc)⟩
      rw [exec_eq_settle ht, henc]
      rfl

/-- The tokenizer leaves the first token in lower case (R70). -/
theorem lower_of_tokenize {line : Str} {t : Tok} {args : List Tok} (h : tokenize line = t :: args) :
    lower t = t := by
  rw [tokenize_eq] at h
  split at h
  · simp at h
  · cases hclean : cleanTokens (rawTokens line) with
    | nil => simp [hclean, lowerFirst] at h
    | cons u us =>
      simp only [hclean, lowerFirst, List.cons.injEq] at h
      obtain ⟨rfl, -⟩ := h
      exact lower_lower u

/-- A string that is no mnemonic's name finds no row (R13, R31). -/
theorem lookupOp_eq_none {c : Codes} {t : Str} (h : ∀ m, t ≠ mnemonicName m) :
    lookupOp (opTabRows c) t = none := by
  rw [Option.eq_none_iff_forall_ne_some]
  rintro ⟨m, e⟩ hrow
  obtain ⟨hname, -⟩ := lookupOp_some hrow
  exact h m hname

/-- Settles O37: the first token finds no row, whatever follows it. -/
theorem unknownMnemonicIsReported : Obligations.UnknownMnemonicIsReported := by
  rintro c s line rest t args ⟨-, hop⟩ hu hs hh hp htok hname
  have hfetch : fetchLine s.optab line = .unknown t := by
    simp only [fetchLine, htok, classify, lower_of_tokenize htok, hop, lookupOp_eq_none hname]
  rw [step_line hs hp, lineStep_of_fits (s := { s with pending := rest }) hh (fits_of_unbounded hu line)]
  simp only [hfetch]
  rfl

end Sys2Proof.Machine
end

section
/-! PROOFS. The numerals and their values (spec/40_common_and_operands.md R85 to R87), and the text of a word
(spec/20_memory.md R35). -/

namespace Sys2Proof.Machine

/-- One more digit on the right moves every other digit one place to the left. -/
theorem positionalSum_snoc (b : Nat) (ds : Str) (d : Chr) :
    positionalSum b (ds ++ [d]) = b * positionalSum b ds + (d.toNat - 0x30) := by
  have hterm : ∀ k ∈ Finset.range ds.length,
      (((ds ++ [d]).getD k 0).toNat - 0x30) * b ^ (ds.length - k)
        = b * (((ds.getD k 0).toNat - 0x30) * b ^ (ds.length - 1 - k)) := by
    intro k hk
    have hlt : k < ds.length := Finset.mem_range.mp hk
    have hexp : ds.length - k = (ds.length - 1 - k) + 1 := by omega
    rw [List.getD_append _ _ _ _ hlt, hexp, pow_succ]
    ring
  have hlast : (ds ++ [d]).getD ds.length 0 = d := by simp
  rw [positionalSum, positionalSum, List.length_append, List.length_singleton, Finset.sum_range_succ,
    Nat.add_sub_cancel, Finset.sum_congr rfl hterm, ← Finset.mul_sum, hlast, Nat.sub_self, pow_zero,
    mul_one]

/-- The value of a digit string is its positional sum (R86, R87, R90). -/
theorem digitsValue_eq_positionalSum (b : Nat) (ds : Str) : digitsValue b ds = positionalSum b ds := by
  induction ds using List.reverseRecOn with
  | nil => rfl
  | append_singleton ds d ih => rw [digitsValue_snoc, positionalSum_snoc, ih]

theorem all_isBinDigit_iff {ds : Str} :
    ds.all isBinDigit = true ↔ ∀ d ∈ ds, d = 0x30#8 ∨ d = 0x31#8 := by
  simp [isBinDigit]

theorem all_isDecDigit_iff {ds : Str} :
    ds.all isDecDigit = true ↔ ∀ d ∈ ds, 0x30#8 ≤ d ∧ d ≤ 0x39#8 := by
  simp [isDecDigit]

/-- The binary form: the two characters, then digits (R86). -/
theorem parseNumeral_binary_iff {t : Tok} {v : Int} (hp : hasBinPrefix t = true) :
    parseNumeral t = some v ↔ ∃ ds : Str, ds ≠ [] ∧ ds.all isBinDigit = true ∧
      t = 0x30#8 :: 0x62#8 :: ds ∧ v = digitsValue 2 ds := by
  have htake : t.take 2 = [0x30#8, 0x62#8] := beq_iff_eq.mp hp
  have ht : t = 0x30#8 :: 0x62#8 :: t.drop 2 := by
    conv_lhs => rw [← List.take_append_drop 2 t, htake]
    rfl
  rw [parseNumeral, if_pos hp, parseBinary, Option.map_eq_some_iff]
  constructor
  · rintro ⟨n, hn, rfl⟩
    obtain ⟨hne, hall, rfl⟩ := parseDigits_eq_some.mp hn
    exact ⟨t.drop 2, hne, hall, ht, rfl⟩
  · rintro ⟨ds, hne, hall, rfl, rfl⟩
    exact ⟨digitsValue 2 ds, parseDigits_eq_some.mpr ⟨hne, hall, rfl⟩, rfl⟩

/-- The decimal forms: digits, perhaps after one minus sign (R87). -/
theorem of_parseDecimal {t : Tok} {v : Int} (h : parseDecimal t = some v) :
    (t ≠ [] ∧ t.all isDecDigit = true ∧ v = digitsValue 10 t) ∨
      ∃ ds : Str, ds ≠ [] ∧ ds.all isDecDigit = true ∧ t = 0x2D#8 :: ds ∧
        v = -(digitsValue 10 ds : Int) := by
  cases t with
  | nil => simp [parseDecimal] at h
  | cons ch cs =>
    rw [parseDecimal] at h
    split at h
    · rename_i hminus
      obtain ⟨n, hn, rfl⟩ := Option.map_eq_some_iff.mp h
      obtain ⟨hne, hall, rfl⟩ := parseDigits_eq_some.mp hn
      exact .inr ⟨cs, hne, hall, by rw [hminus], rfl⟩
    · obtain ⟨n, hn, rfl⟩ := Option.map_eq_some_iff.mp h
      obtain ⟨hne, hall, rfl⟩ := parseDigits_eq_some.mp hn
      exact .inl ⟨hne, hall, rfl⟩

/-- Settles O20: the first two characters choose the form, and within each form the digits are read to their
positional sum. -/
theorem numeralsAndTheirValues : Obligations.NumeralsAndTheirValues := by
  intro t v
  simp only [← all_isBinDigit_iff, ← all_isDecDigit_iff, ← digitsValue_eq_positionalSum]
  constructor
  · intro h
    by_cases hp : hasBinPrefix t = true
    · exact .inl ((parseNumeral_binary_iff hp).mp h)
    · rw [parseNumeral, if_neg hp] at h
      obtain ⟨hne, hall, rfl⟩ | hminus := of_parseDecimal h
      · exact .inr (.inl ⟨t, hne, hall, rfl, rfl⟩)
      · exact .inr (.inr hminus)
  · rintro (⟨ds, hne, hall, rfl, rfl⟩ | ⟨ds, hne, hall, rfl, rfl⟩ | ⟨ds, hne, hall, rfl, rfl⟩)
    · exact (parseNumeral_binary_iff rfl).mpr ⟨ds, hne, hall, rfl, rfl⟩
    · exact parseNumeral_digits hne hall
    · exact parseNumeral_minus hne hall

/-- Character `i` of a word's text is that of bit `18 - i` (R35). -/
theorem wordText_getElem? (w : Word) {i : Nat} (h : i < 19) :
    (wordText w)[i]? = some (bitChar (w.getLsbD (18 - i))) := by
  simp [wordText, List.getElem?_range h]

theorem bitChar_inj {a b : Bool} (h : bitChar a = bitChar b) : a = b := by
  revert a b; decide

/-- The word that a text of nineteen characters spells, leftmost bit 18. -/
def wordOfText (t : Str) : Word := BitVec.ofFnLE fun i : Fin 19 => t[18 - i.val]? == some 0x31#8

theorem getLsbD_wordOfText (t : Str) {i : Nat} (h : i < 19) :
    (wordOfText t).getLsbD (18 - i) = (t[i]? == some 0x31#8) := by
  rw [wordOfText, BitVec.getLsbD_ofFnLE, dif_pos (by omega), Nat.sub_sub_self (by omega)]

/-- The text of the word that a text spells is that text. -/
theorem wordText_wordOfText {t : Str} (hlen : t.length = 19)
    (hbits : ∀ ch ∈ t, ch = 0x30#8 ∨ ch = 0x31#8) : wordText (wordOfText t) = t := by
  refine List.ext_getElem? fun i => ?_
  by_cases hi : i < 19
  · have hget : t[i]? = some t[i] := List.getElem?_eq_getElem (by omega)
    rw [wordText_getElem? _ hi, getLsbD_wordOfText t hi, hget]
    obtain hch | hch := hbits t[i] (List.getElem_mem _) <;> simp [hch, bitChar]
  · rw [List.getElem?_eq_none (by simpa using hi), List.getElem?_eq_none (by omega)]

/-- Settles O21: the characters determine the bits, and `wordOfText` is an inverse. -/
theorem wordTextIsABijection : Obligations.WordTextIsABijection := by
  refine ⟨fun w w' h => ?_, fun t hlen hbits => ⟨wordOfText t, wordText_wordOfText hlen hbits⟩,
    fun w i hi => wordText_getElem? w hi⟩
  refine BitVec.eq_of_getLsbD_eq fun i hi => bitChar_inj ?_
  have hchar := wordText_getElem? w (i := 18 - i) (by omega)
  rw [h, wordText_getElem? w' (by omega), Option.some.injEq, Nat.sub_sub_self (by omega)] at hchar
  exact hchar.symm

end Sys2Proof.Machine
end

section
/-! PROOFS. The tokenizer on every layout of a line (spec/30_encoding.md R66 to R71). -/

namespace Sys2Proof.Machine

/-- Whitespace before a line is of no matter (R66). -/
theorem tokenize_ws_append {ws : Str} (h : ws.all isWs = true) (l : Str) :
    tokenize (ws ++ l) = tokenize l := by
  rw [tokenize_eq, tokenize_eq, List.dropWhile_append_of_pos (List.all_eq_true.mp h)]
  simp only [rawTokens, rawTokensFrom_ws h]

/-- Whitespace after a line is of no matter (R66). -/
theorem tokenize_append_ws {ws : Str} (h : ws.all isWs = true) (l : Str) :
    tokenize (l ++ ws) = tokenize l := by
  have hhead : ((l ++ ws).dropWhile isWs).head? = (l.dropWhile isWs).head? := by
    have hws : ws.dropWhile isWs = [] := by simpa [List.dropWhile_eq_nil_iff] using h
    rw [List.dropWhile_append]
    cases hl : l.dropWhile isWs <;> simp [hws]
  rw [tokenize_eq, tokenize_eq, hhead]
  simp only [rawTokens, rawTokensFrom_ws_end h]

/-- The first character of a line that begins with a token is the token's. -/
theorem head?_dropWhile_token {t : Tok} (h0 : t ≠ []) (h : t.all (fun ch => !isWs ch) = true)
    (rest : Str) : ((t ++ rest).dropWhile isWs).head? = t.head? := by
  cases t with
  | nil => exact absurd rfl h0
  | cons ch cs =>
    simp only [List.all_cons, Bool.and_eq_true, Bool.not_eq_true'] at h
    obtain ⟨hch, -⟩ := h
    simp [hch]

/-- The raw token of a piece: the token, and its comma if it has one (R68). -/
def Piece.raw (p : Piece) : Tok := p.tok ++ if p.comma then [0x2C#8] else []

theorem Piece.text_eq (p : Piece) : p.text = p.raw ++ p.sep := rfl

/-- What makes a piece one raw token that cleans to its token, with whitespace after it. -/
structure Piece.Reads (p : Piece) : Prop where
  raw_ne_nil : p.raw ≠ []
  raw_no_ws : p.raw.all (fun ch => !isWs ch) = true
  sep_ne_nil : p.sep ≠ []
  sep_ws : p.sep.all isWs = true
  strip : stripComma p.raw = p.tok
  no_hash : endsWithHash p.tok = false

theorem Piece.reads_of_ok {p : Piece} (h : p.ok = true) : p.Reads := by
  obtain ⟨tok, comma, sep⟩ := p
  simp only [Piece.ok, Bool.and_eq_true, Bool.or_eq_true, decide_eq_true_eq] at h
  obtain ⟨⟨⟨⟨htok, hhash⟩, hplain⟩, hsep0⟩, hsep⟩ := h
  have hno : endsWithHash tok = false := by simpa [endsWithHash] using hhash
  cases comma with
  | true =>
    refine ⟨by simp [Piece.raw], ?_, hsep0, hsep, stripComma_comma tok, hno⟩
    simp only [Piece.raw, if_true, List.all_append, htok]
    decide
  | false =>
    obtain ⟨h0, hcomma⟩ : tok ≠ [] ∧ tok.getLast? ≠ some 0x2C#8 := by simpa using hplain
    have hraw : (Piece.mk tok false sep).raw = tok := List.append_nil tok
    refine ⟨?_, ?_, hsep0, hsep, ?_, hno⟩ <;> rw [hraw]
    exacts [h0, htok, stripComma_keep hcomma]

/-- Pieces are read to their tokens, whatever follows them (R68, R69). -/
theorem cleanTokens_pieces {ps : List Piece} (h : ∀ p ∈ ps, p.ok = true) (rest : Str) :
    cleanTokens (rawTokens (ps.flatMap Piece.text ++ rest))
      = ps.map Piece.tok ++ cleanTokens (rawTokens rest) := by
  induction ps with
  | nil => rfl
  | cons p ps ih =>
    have hp := Piece.reads_of_ok (h p List.mem_cons_self)
    have hps := ih fun q hq => h q (List.mem_cons_of_mem p hq)
    rw [List.flatMap_cons, List.append_assoc, Piece.text_eq,
      rawTokens_token hp.raw_ne_nil hp.raw_no_ws hp.sep_ne_nil hp.sep_ws, cleanTokens, hp.strip,
      hp.no_hash, hps]
    rfl

/-- A line that begins with pieces is no comment line, unless the first token begins with `;` (R67). -/
theorem head?_pieces {p : Piece} (hp : p.ok = true) (hsemi : p.tok.head? ≠ some 0x3B#8) (rest : Str) :
    ((p.text ++ rest).dropWhile isWs).head? ≠ some 0x3B#8 := by
  have hr := Piece.reads_of_ok hp
  rw [Piece.text_eq, List.append_assoc, head?_dropWhile_token hr.raw_ne_nil hr.raw_no_ws, Piece.raw]
  cases htok : p.tok with
  | nil => cases p.comma <;> simp
  | cons ch cs => simpa [htok] using hsemi

/-- The tokens of a line that begins with pieces: theirs, the first in lower case, and those of the rest. -/
theorem tokenize_pieces {p : Piece} {ps : List Piece} (h : ∀ q ∈ p :: ps, q.ok = true)
    (hsemi : p.tok.head? ≠ some 0x3B#8) (rest : Str) :
    tokenize ((p :: ps).flatMap Piece.text ++ rest)
      = lower p.tok :: (ps.map Piece.tok ++ cleanTokens (rawTokens rest)) := by
  have hhead := head?_pieces (h p List.mem_cons_self) hsemi (ps.flatMap Piece.text ++ rest)
  rw [← List.append_assoc, ← List.flatMap_cons] at hhead
  rw [tokenize_eq, if_neg hhead, cleanTokens_pieces h]
  rfl

/-- A token is read whole where the line ends or goes on with whitespace. -/
theorem exists_rawTokens_startsBlank {t : Tok} {rest : Str} (h0 : t ≠ [])
    (h : t.all (fun ch => !isWs ch) = true) (hrest : startsBlank rest = true) :
    ∃ ts, rawTokens (t ++ rest) = t :: ts := by
  cases rest with
  | nil => exact ⟨[], by rw [List.append_nil, rawTokens_last h0 h]⟩
  | cons ch cs =>
    have hch : isWs ch = true := hrest
    have htok := rawTokens_token h0 h (List.cons_ne_nil ch []) (by simp [hch]) cs
    exact ⟨rawTokens cs, by simpa using htok⟩

/-- A raw token that ends with `#`, perhaps with a comma after it, ends the line (R69). -/
theorem cleanTokens_comment {t rest : Str} {comma : Bool} (h : t.all (fun ch => !isWs ch) = true)
    (hrest : startsBlank rest = true) :
    cleanTokens (rawTokens (t ++ [0x23#8] ++ (if comma then [0x2C#8] else []) ++ rest)) = [] := by
  have hhash : endsWithHash (t ++ [0x23#8]) = true := by simp [endsWithHash]
  have hstrip : stripComma (t ++ [0x23#8] ++ if comma then [0x2C#8] else []) = t ++ [0x23#8] := by
    cases comma with
    | true => exact stripComma_comma _
    | false => simp [stripComma]
  have hraw : (t ++ [0x23#8] ++ if comma then [0x2C#8] else []).all (fun ch => !isWs ch) = true := by
    have hmarks : isWs 0x23#8 = false ∧ isWs 0x2C#8 = false := by decide
    cases comma <;> simpa [hmarks] using h
  obtain ⟨ts, hts⟩ := exists_rawTokens_startsBlank (by simp) hraw hrest
  rw [hts, cleanTokens, hstrip, if_pos hhash]

/-- Settles O22: after the pieces of a line come no more tokens, or a comment token that ends it. -/
theorem tokenizerReadsEveryLayout : Obligations.TokenizerReadsEveryLayout := by
  refine ⟨fun ws l hws => ⟨tokenize_ws_append hws l, tokenize_append_ws hws l⟩, fun p ps hok hsemi => ?_⟩
  refine ⟨?alone, fun h comma rest hh hrest => ?comment⟩
  case alone =>
    have htok := tokenize_pieces hok hsemi []
    rwa [List.append_nil, show cleanTokens (rawTokens []) = [] from rfl, List.append_nil] at htok
  case comment =>
    have htok := tokenize_pieces hok hsemi
      (h ++ [0x23#8] ++ (if comma then [0x2C#8] else []) ++ rest)
    rw [cleanTokens_comment hh hrest, List.append_nil] at htok
    simpa only [List.append_assoc] using htok

/-- A line that begins with a comment token has no tokens (R69). -/
theorem tokenize_comment {t rest : Str} {comma : Bool} (h : t.all (fun ch => !isWs ch) = true)
    (hrest : startsBlank rest = true) :
    tokenize (t ++ [0x23#8] ++ (if comma then [0x2C#8] else []) ++ rest) = [] := by
  rw [tokenize_eq, cleanTokens_comment h hrest, lowerFirst, ite_self]

/-- Settles O23: without its whitespace the line is empty, a comment line or a comment token's line. -/
theorem blankAndCommentLinesHaveNoTokens : Obligations.BlankAndCommentLinesHaveNoTokens := by
  intro ws hws
  refine ⟨?blank, fun l => ?semicolon, fun h comma rest hh hrest => ?comment⟩
  case blank =>
    rw [← List.append_nil ws, tokenize_ws_append hws]
    rfl
  case semicolon =>
    rw [tokenize_ws_append hws, tokenize_eq]
    exact if_pos rfl
  case comment =>
    have htok := tokenize_comment (comma := comma) hh hrest
    rw [← tokenize_ws_append hws] at htok
    simpa only [List.append_assoc] using htok

end Sys2Proof.Machine
end
